-- ==== Sys2Proof/Word.lean ====
section
/-!
DEFINITION. The word of the machine (00_scope.md R7, R22), the byte of its ports (R14), and the three classes an operand
word falls into (30_encoding.md R92).
-/
namespace Sys2Proof

/-- "16-bit unsigned value; the VM's unit of memory/register/stack content" (00_scope.md R22). -/
abbrev Word := BitVec 16

/-- One byte on the input or the output port (00_scope.md R14). -/
abbrev Byte := BitVec 8

/-- An operand word, read by range (30_encoding.md R92, 00_scope.md R7). -/
inductive Operand where
  /-- 0 to 32767: "a word in [0,32767] representing itself". -/
  | literal (v : Word)
  /-- 32768 to 32775: the register `r(w - 32768)`. -/
  | register (k : Fin 8)
  /-- 32776 to 65535: no legal operand of either kind. -/
  | invalid (w : Word)
deriving DecidableEq, Repr

end Sys2Proof
end

