-- ==== Sys2Proof/Syntax.lean ====
section
/-!
DEFINITION. The instruction set: one constructor per row of spec/opcode_table.json, exactly the 22 tags of 30_encoding.md
R96 and R103, operands in encoding order (R93).
-/
namespace Sys2Proof

/-- A decoded instruction: its tag and its operand words, each put into its class (30_encoding.md R92). Which operand is
read (R) and which is a write target (W) is fixed per opcode and position (R94, R96). -/
inductive Instr where
  | halt
  | set (a b : Operand)
  | push (a : Operand)
  | pop (a : Operand)
  | eq (a b c : Operand)
  | gt (a b c : Operand)
  | jmp (a : Operand)
  | jmpIfTrue (a b : Operand)
  | jmpIfFalse (a b : Operand)
  | add (a b c : Operand)
  | mult (a b c : Operand)
  | mod (a b c : Operand)
  | and (a b c : Operand)
  | or (a b c : Operand)
  | not (a b : Operand)
  | rMem (a b : Operand)
  | wMem (a b : Operand)
  | call (a : Operand)
  | ret
  | out (a : Operand)
  | input (a : Operand)
  | noop
deriving DecidableEq, Repr

end Sys2Proof
end

