-- ==== Sys2Proof/WellFormed.lean ====
section
/-!
DEFINITION. Which instructions are legal: every operand legal for its kind (30_encoding.md R97, R99, R105, R106).
-/
namespace Sys2Proof

/-- A legal R operand: a literal of the literal range, or a register (30_encoding.md R97, R105). -/
def Operand.readable : Operand → Bool
  | .literal v => v.toNat ≤ 32767
  | .register _ => true
  | .invalid _ => false

/-- A legal W operand: a register (30_encoding.md R99, R105). -/
def Operand.writable : Operand → Bool
  | .literal _ => false
  | .register _ => true
  | .invalid _ => false

/-- The operand is what 30_encoding.md R92 makes of some word: a literal up to 32767, a register, an invalid word from 32776. -/
def Operand.classed : Operand → Bool
  | .literal v => v.toNat ≤ 32767
  | .register _ => true
  | .invalid w => 32776 ≤ w.toNat

/-- Every operand is legal for its kind in the table of 30_encoding.md R96. -/
def Instr.wellFormed : Instr → Bool
  | .halt => true
  | .set a b => a.writable && b.readable
  | .push a => a.readable
  | .pop a => a.writable
  | .eq a b c => a.writable && b.readable && c.readable
  | .gt a b c => a.writable && b.readable && c.readable
  | .jmp a => a.readable
  | .jmpIfTrue a b => a.readable && b.readable
  | .jmpIfFalse a b => a.readable && b.readable
  | .add a b c => a.writable && b.readable && c.readable
  | .mult a b c => a.writable && b.readable && c.readable
  | .mod a b c => a.writable && b.readable && c.readable
  | .and a b c => a.writable && b.readable && c.readable
  | .or a b c => a.writable && b.readable && c.readable
  | .not a b => a.writable && b.readable
  | .rMem a b => a.writable && b.readable
  | .wMem a b => a.readable && b.readable
  | .call a => a.readable
  | .ret => true
  | .out a => a.readable
  | .input a => a.writable
  | .noop => true

end Sys2Proof
end

