-- ==== Sys2Proof/Decode.lean ====
section
/-!
DEFINITION. The Instruction Decoder on words, total and rejecting by name, and the encoder beside it (30_encoding.md R90 to
R106). `Tag.row` is the table of R96. Legality of an operand word for its kind is `Kind.accepts`; the engine's fetch
(Machine/Fetch.lean) applies it word by word, in the order of R100.
-/
namespace Sys2Proof

/-- The 22 tags of 30_encoding.md R103, "a closed tagged-variant enumeration". -/
inductive Tag where
  | halt | set | push | pop | eq | gt | jmp | jmpIfTrue | jmpIfFalse | add | mult | mod | and | or | not
  | rMem | wMem | call | ret | out | input | noop
deriving DecidableEq, Repr

/-- The two kinds of operand (30_encoding.md R94): `r` is read ("resolve"), `w` is a write target ("dst-raw"). -/
inductive Kind where
  | r
  | w
deriving DecidableEq, Repr

/-- The table of 30_encoding.md R96, one row per tag: its opcode value and the kinds of its operands in encoding order. -/
def Tag.row : Tag → Nat × List Kind
  | .halt => (0, [])
  | .set => (1, [.w, .r])
  | .push => (2, [.r])
  | .pop => (3, [.w])
  | .eq => (4, [.w, .r, .r])
  | .gt => (5, [.w, .r, .r])
  | .jmp => (6, [.r])
  | .jmpIfTrue => (7, [.r, .r])
  | .jmpIfFalse => (8, [.r, .r])
  | .add => (9, [.w, .r, .r])
  | .mult => (10, [.w, .r, .r])
  | .mod => (11, [.w, .r, .r])
  | .and => (12, [.w, .r, .r])
  | .or => (13, [.w, .r, .r])
  | .not => (14, [.w, .r])
  | .rMem => (15, [.w, .r])
  | .wMem => (16, [.r, .r])
  | .call => (17, [.r])
  | .ret => (18, [])
  | .out => (19, [.r])
  | .input => (20, [.w])
  | .noop => (21, [])

/-- The opcode value of a tag (30_encoding.md R102). -/
def Tag.value (t : Tag) : Nat := t.row.1

/-- The kinds of a tag's operands, in encoding order (30_encoding.md R94, R96). -/
def Tag.kinds (t : Tag) : List Kind := t.row.2

/-- The number of operand words, 0 to 3 (30_encoding.md R90, R96). -/
def Tag.arity (t : Tag) : Nat := t.kinds.length

/-- Every tag, in the order of 30_encoding.md R102. -/
def Tag.all : List Tag :=
  [.halt, .set, .push, .pop, .eq, .gt, .jmp, .jmpIfTrue, .jmpIfFalse, .add, .mult] ++
  [.mod, .and, .or, .not, .rMem, .wMem, .call, .ret, .out, .input, .noop]

/-- The tag an opcode word maps to. All 16 bits are compared and the word is not resolved (30_encoding.md R91); none for an
unknown opcode, 22 to 65535 (R104). -/
def Tag.ofWord (op : Word) : Option Tag := Tag.all.find? fun t => t.value == op.toNat

/-- The class of an operand word (30_encoding.md R92). -/
def Operand.ofWord (w : Word) : Operand :=
  if w.toNat ≤ 32767 then .literal w
  else if w.toNat ≤ 32775 then .register (Fin.ofNat 8 (w.toNat - 32768))
  else .invalid w

/-- The word of an operand (30_encoding.md R92, R95). -/
def Operand.toWord : Operand → Word
  | .literal v => v
  | .register k => BitVec.ofNat 16 (32768 + k.val)
  | .invalid w => w

/-- Whether an operand is legal for its kind (30_encoding.md R97, R99, R105). -/
def Kind.accepts : Kind → Operand → Bool
  | .r, .literal v => v.toNat ≤ 32767
  | .r, .register _ => true
  | .r, .invalid _ => false
  | .w, .literal _ => false
  | .w, .register _ => true
  | .w, .invalid _ => false

/-- The tag of an instruction (30_encoding.md R103). -/
def Instr.tag : Instr → Tag
  | .halt => .halt
  | .set _ _ => .set
  | .push _ => .push
  | .pop _ => .pop
  | .eq _ _ _ => .eq
  | .gt _ _ _ => .gt
  | .jmp _ => .jmp
  | .jmpIfTrue _ _ => .jmpIfTrue
  | .jmpIfFalse _ _ => .jmpIfFalse
  | .add _ _ _ => .add
  | .mult _ _ _ => .mult
  | .mod _ _ _ => .mod
  | .and _ _ _ => .and
  | .or _ _ _ => .or
  | .not _ _ => .not
  | .rMem _ _ => .rMem
  | .wMem _ _ => .wMem
  | .call _ => .call
  | .ret => .ret
  | .out _ => .out
  | .input _ => .input
  | .noop => .noop

/-- The operands of an instruction in encoding order (30_encoding.md R93). -/
def Instr.operands : Instr → List Operand
  | .halt => []
  | .set a b => [a, b]
  | .push a => [a]
  | .pop a => [a]
  | .eq a b c => [a, b, c]
  | .gt a b c => [a, b, c]
  | .jmp a => [a]
  | .jmpIfTrue a b => [a, b]
  | .jmpIfFalse a b => [a, b]
  | .add a b c => [a, b, c]
  | .mult a b c => [a, b, c]
  | .mod a b c => [a, b, c]
  | .and a b c => [a, b, c]
  | .or a b c => [a, b, c]
  | .not a b => [a, b]
  | .rMem a b => [a, b]
  | .wMem a b => [a, b]
  | .call a => [a]
  | .ret => []
  | .out a => [a]
  | .input a => [a]
  | .noop => []

/-- Why the decoder rejects a list of words. -/
inductive DecodeError where
  /-- There is no opcode word at all. -/
  | noOpcode
  /-- "An unmapped raw opcode value is `Unknown`" (30_encoding.md R104). -/
  | unknownOpcode (op : Word)
  /-- Fewer operand words follow than the arity asks for (30_encoding.md R90). -/
  | missingOperand (t : Tag)
deriving DecidableEq, Repr

/-- One operand word: the instruction and the words after it. -/
def decode1 (t : Tag) (f : Operand → Instr) : List Word → Except DecodeError (Instr × List Word)
  | a :: rest => .ok (f (.ofWord a), rest)
  | [] => .error (.missingOperand t)

/-- Two operand words. -/
def decode2 (t : Tag) (f : Operand → Operand → Instr) : List Word → Except DecodeError (Instr × List Word)
  | a :: b :: rest => .ok (f (.ofWord a) (.ofWord b), rest)
  | [_] => .error (.missingOperand t)
  | [] => .error (.missingOperand t)

/-- Three operand words. -/
def decode3 (t : Tag) (f : Operand → Operand → Operand → Instr) : List Word → Except DecodeError (Instr × List Word)
  | a :: b :: c :: rest => .ok (f (.ofWord a) (.ofWord b) (.ofWord c), rest)
  | [_, _] => .error (.missingOperand t)
  | [_] => .error (.missingOperand t)
  | [] => .error (.missingOperand t)

/-- The operand words of a tag, read as the formats F0 to F3 of 30_encoding.md R93 lay them out. -/
def decodeTag (t : Tag) (ws : List Word) : Except DecodeError (Instr × List Word) :=
  match t with
  | .halt => .ok (.halt, ws)
  | .set => decode2 t .set ws
  | .push => decode1 t .push ws
  | .pop => decode1 t .pop ws
  | .eq => decode3 t .eq ws
  | .gt => decode3 t .gt ws
  | .jmp => decode1 t .jmp ws
  | .jmpIfTrue => decode2 t .jmpIfTrue ws
  | .jmpIfFalse => decode2 t .jmpIfFalse ws
  | .add => decode3 t .add ws
  | .mult => decode3 t .mult ws
  | .mod => decode3 t .mod ws
  | .and => decode3 t .and ws
  | .or => decode3 t .or ws
  | .not => decode2 t .not ws
  | .rMem => decode2 t .rMem ws
  | .wMem => decode2 t .wMem ws
  | .call => decode1 t .call ws
  | .ret => .ok (.ret, ws)
  | .out => decode1 t .out ws
  | .input => decode1 t .input ws
  | .noop => .ok (.noop, ws)

/-- The decoder: from any words, an instruction and the words after it, or a rejection by name (30_encoding.md R90, R91,
R100 to R104). An operand word that is illegal for its kind decodes to an instruction that is not well formed; it raises
InvalidOperand when it is fetched or executed (R105). DESIGN CHOICE (log entry 9), safe. -/
def decode : List Word → Except DecodeError (Instr × List Word)
  | [] => .error .noOpcode
  | op :: ws =>
    match Tag.ofWord op with
    | none => .error (.unknownOpcode op)
    | some t => decodeTag t ws

/-- The words of an instruction: its opcode word, then its operand words in encoding order (30_encoding.md R90, R93, R102). -/
def encode (i : Instr) : List Word := BitVec.ofNat 16 i.tag.value :: i.operands.map Operand.toWord

/-- Word `k` of an instruction given as one number, word 0 in its low 16 bits. -/
def wordOfNumber (w k : Nat) : Word := BitVec.ofNat 16 (w / 65536 ^ k)

/-- The words of the longest instruction (4 words, 30_encoding.md R90) in a number of `nbits` bits, numbered as
spec/opcode_table.json numbers them; every bit above `nbits` is 0. -/
def tableWords (nbits w : Nat) : List Word :=
  [wordOfNumber (w % 2 ^ nbits) 0, wordOfNumber (w % 2 ^ nbits) 1,
   wordOfNumber (w % 2 ^ nbits) 2, wordOfNumber (w % 2 ^ nbits) 3]

/-- The instruction the decoder reads from an instruction whose bits are `w`, or none where the decoder rejects it. -/
def decodeTableWord (nbits w : Nat) : Option Instr :=
  match decode (tableWords nbits w) with
  | .ok (i, _) => some i
  | .error _ => none

end Sys2Proof
end

