-- ==== Sys2Proof/Config.lean ====
section
/-!
DEFINITION. What an implementation fixes and the spec leaves as a parameter: STACK_CAPACITY (00_scope.md R11,
92_eei_decisions.md D12).
-/
namespace Sys2Proof

/-- A number nothing in Lean can evaluate: how far STACK_CAPACITY exceeds its least legal value, 1. DESIGN CHOICE (log entry 3), safe. -/
opaque Config.extraCapacity : Nat

/-- STACK_CAPACITY, "an integer ≥ 1" (00_scope.md R11): the capacity `State.reset` carries. DESIGN CHOICE (log entry 3), safe. -/
def Config.stackCapacity : Nat := Config.extraCapacity + 1

end Sys2Proof
end

