-- ==== Sys2Proof/Machine/State.lean ====
section
/-!
DEFINITION. The state of the machine (10_state.md R30 to R47, 70_reset_and_hazards.md R350), the host's actions on its ports
(60_exceptions.md R328 to R337, 46_io.md R280), the reasons a step can stop, and the state after reset. Types and data only.
-/
namespace Sys2Proof.Machine

open Sys2Proof

/-- The word store: the set cells as (address, word) pairs, addresses strictly rising and below 65536 (10_state.md R39). An
address that is not listed is unset and has no value. The cell is a word because no access is smaller (20_memory.md R63).
DESIGN CHOICE (log entries 1 and 2), safe. -/
abbrev Memory := List (Nat × Word)

/-- The engine states of 10_state.md R40 and 40_engine.md R131, in the order of their codes 0 to 3. -/
inductive EngineState where
  | running
  | paused
  | halted
  | faulted
deriving DecidableEq, Repr

/-- The fault record, the report of the last fatal fault (10_state.md R41). -/
structure FaultRecord where
  /-- FCAUSE, the cause code of 60_exceptions.md R301. -/
  fcause : BitVec 4
  /-- FIP, the IP of the faulting instruction. -/
  fip : Word
  /-- FOPC, the raw opcode word. -/
  fopc : Word
  /-- FOPC_V, 1 when the opcode word was fetched. -/
  fopcV : BitVec 1
  /-- FNOPS, how many operand words were fetched before the fault. -/
  fnops : BitVec 2
  /-- FOPN0 to FOPN2, the raw operand words in encoding order, 0 at or beyond FNOPS. -/
  fopn0 : Word
  fopn1 : Word
  fopn2 : Word
  /-- FADDR, for InvalidAddress the address that could not be read, which can be 65536. -/
  faddr : BitVec 17
  /-- FOPK, for InvalidOperand the index of the offending operand. -/
  fopk : BitVec 2
deriving DecidableEq, Repr

/-- The fault record after reset: "All its fields are 0 after reset" (10_state.md R41). -/
def FaultRecord.zero : FaultRecord :=
  { fcause := 0, fip := 0, fopc := 0, fopcV := 0, fnops := 0, fopn0 := 0, fopn1 := 0, fopn2 := 0, faddr := 0, fopk := 0 }

/-- The host's answer to a line request: a line or EOF (46_io.md R275, R280). -/
inductive Answer where
  | line (bytes : List Byte)
  | eof
deriving DecidableEq, Repr

/-- The calls of the inspection port (60_exceptions.md R328). -/
inductive HostCall where
  | getStatus
  | isHalted
  | isFaulted
  | getFault
  | pause
  | run
  | getIp
  | setIp (v : Word)
  | readMemoryWord (addr : Word)
  | writeMemoryWord (addr value : Word)
  | readRegister (idx : Nat)
  | writeRegister (idx : Nat) (value : Word)
  | readStack
  | registerBreakpoint (addr : Word)
  | stepOneInstruction
deriving DecidableEq, Repr

/-- What the host can do between two instructions (00_scope.md R3): call the inspection port, answer the outstanding line
request, or intercept a line before it is delivered (46_io.md R277, R280). -/
inductive HostAction where
  | call (c : HostCall)
  | answer (a : Answer)
  | intercept (line : List Byte)
deriving DecidableEq, Repr

/-- What a call of the inspection port returns (60_exceptions.md R328 to R337). -/
inductive HostReply where
  /-- The call was accepted and returns nothing. -/
  | done
  /-- The call was refused: "it has no effect and returns an error" (R328). -/
  | refused
  | bool (b : Bool)
  | word (v : Word)
  | optWord (v : Option Word)
  | stack (entries : List Word)
  | fault (r : FaultRecord)
deriving DecidableEq, Repr

/-- The state of the block. The fields down to `singleStep` are the spec's; the last four are the model's own and stand for the
outside world (INVENTORY.md, State). -/
structure State where
  /-- `x[0]` to `x[7]` (10_state.md R30). -/
  regs : Vector Word 8
  /-- `IP` (10_state.md R34). -/
  ip : Word
  /-- The live entries of `S`, TOP FIRST; `SP` is the length (10_state.md R35, R37). -/
  stack : List Word
  /-- STACK_CAPACITY, a parameter no step changes (00_scope.md R11). DESIGN CHOICE (log entry 3), safe. -/
  stackCapacity : Nat
  /-- `mem` and `set` (10_state.md R39). -/
  mem : Memory
  /-- `STATUS.STATE` (10_state.md R40). -/
  engine : EngineState
  /-- `STATUS.WAIT_INPUT`; it is also "a request is outstanding" on the input port (10_state.md R40, 46_io.md R274, R280). -/
  waitInput : Bool
  /-- The fault record (10_state.md R41). -/
  fault : FaultRecord
  /-- `IB`, the next byte to deliver first (10_state.md R42). -/
  ib : List Byte
  /-- `BP`, the addresses whose bit is set, strictly rising (10_state.md R43). -/
  bp : List Nat
  /-- `SKIP_BP` (10_state.md R44). -/
  skipBp : Bool
  /-- The output stream, first byte first (46_io.md R266, R279). -/
  output : List Byte
  /-- A host `pause` that waits for the next instruction boundary (60_exceptions.md R314, R335). -/
  pausePending : Bool
  /-- The running instruction is a `step_one_instruction` whose `In` waits (60_exceptions.md R335). DEDUCED (log entry 11). -/
  singleStep : Bool
  /-- Model's own: how many line requests the input port has carried (46_io.md R271, R280). -/
  lineRequests : Nat
  /-- Model's own: the answers the host gives as soon as it is asked, first to be used first (46_io.md R280). -/
  answers : List Answer
  /-- Model's own: who moves at the coming instruction boundaries; `none` is the engine's turn, and so is the empty list. -/
  host : List (Option HostAction)
  /-- Model's own: what the inspection port has returned, oldest first. -/
  replies : List HostReply
deriving DecidableEq, Repr

/-- Why no step is enabled. Every one is a stuck state the spec describes, reached only when the host has no action left. A
fatal fault of the spec is none of these: it is a next state in Faulted (60_exceptions.md R310). DEDUCED (log entry 8). -/
inductive Fault where
  /-- Raised by `step` in Halted: "With no host action, Halted and Faulted are final" (40_engine.md R131). Safe. -/
  | halted
  /-- Raised by `step` in Faulted (40_engine.md R131, 60_exceptions.md R311). Safe. -/
  | faulted
  /-- Raised by `step` in Paused, which only a host call leaves (40_engine.md R131). Safe. -/
  | paused
  /-- Raised by `step` while an `In` waits and no answer comes: "a permanent stall" (46_io.md R274; 93 U5). Safe. -/
  | waitingForInput
deriving DecidableEq, Repr

/-- Why an instruction has no meaning in the model. -/
inductive Refusal where
  /-- Raised by an arm of `exec` whose instruction has no meaning yet; no arm does. Safe. -/
  | notModelled (mnemonic : String)
deriving DecidableEq, Repr

/-- The state after reset and the load of an empty image (70_reset_and_hazards.md R350): the fields down to `output`, but for
the capacity, as its table states them; `stackCapacity` is the parameter (log entry 3); the rest as log entry 5 says. -/
def State.reset : State :=
  { regs := Vector.replicate 8 0
    ip := 0
    stack := []
    stackCapacity := Config.stackCapacity
    mem := []
    engine := .running
    waitInput := false
    fault := FaultRecord.zero
    ib := []
    bp := []
    skipBp := false
    output := []
    pausePending := false
    singleStep := false
    lineRequests := 0
    answers := []
    host := []
    replies := [] }

end Sys2Proof.Machine
end

