-- ==== Sys2Proof/Machine/Ops.lean ====
section
/-!
DEFINITION. The named operations over registers, stack, memory, ports and status that every meaning is written with
(00_scope.md R19), fault entry as one operation (60_exceptions.md R310), the return from a fault beside it (R320, R335), and the
commit of a step (40_engine.md R135, R137).
-/
namespace Sys2Proof.Machine

open Sys2Proof

/-- The answer of one instruction or step. -/
abbrev Result := Host.Outcome State Fault Refusal

/-! ## Registers and IP -/

/-- `x[k]` (10_state.md R30, R31). -/
def State.getReg (s : State) (k : Fin 8) : Word := s.regs[k]

/-- `x[k] <- v` (10_state.md R32, R33). -/
def State.setReg (s : State) (k : Fin 8) (v : Word) : State := { s with regs := s.regs.set k.val v k.isLt }

/-- `IP <- v` (10_state.md R34). -/
def State.setIp (s : State) (v : Word) : State := { s with ip := v }

/-! ## The word store -/

/-- The cell at an address: its value when its set bit is 1, none when it is 0 (10_state.md R39). -/
def Memory.read : Memory → Nat → Option Word
  | [], _ => none
  | (b, w) :: m, a => if a = b then some w else Memory.read m a

/-- `mem[a] <- v; set[a] <- 1` (20_memory.md R65), keeping the canonical form. -/
def Memory.write : Memory → Nat → Word → Memory
  | [], a, v => [(a, v)]
  | (b, w) :: m, a, v =>
    if a < b then (a, v) :: (b, w) :: m
    else if a = b then (a, v) :: m
    else (b, w) :: Memory.write m a v

/-- The addresses rise strictly, starting at `lo` or above, and stay below 65536. -/
def Memory.risingFrom : Nat → Memory → Bool
  | _, [] => true
  | lo, (a, _) :: m => lo ≤ a && a ≤ 65535 && Memory.risingFrom (a + 1) m

/-- The canonical form: addresses strictly rising and inside the address space of 65,536 cells (10_state.md R39). -/
def Memory.wf (m : Memory) : Bool := Memory.risingFrom 0 m

/-- `MemRead(a, 1)` (20_memory.md R64): the set cell, else the register for an alias address, else nothing, where the rule
raises InvalidAddress(a). The address may be 65536 or more, where there is no cell. -/
def State.memRead (s : State) (a : Nat) : Option Word :=
  match (if a ≤ 65535 then s.mem.read a else none) with
  | some v => some v
  | none => if 32768 ≤ a ∧ a ≤ 32775 then some (s.getReg (Fin.ofNat 8 (a - 32768))) else none

/-- `MemWrite(a, 1, v)` (20_memory.md R65). -/
def State.memWrite (s : State) (a v : Word) : State := { s with mem := s.mem.write a.toNat v }

/-- The words stored at `addr` and on, as far as there are addresses. -/
def storeWords (m : Memory) (addr : Nat) : List Word → Memory
  | [] => m
  | w :: ws => storeWords (if addr ≤ 65535 then m.write addr w else m) (addr + 1) ws

/-- The words of an instruction placed at IP from outside, and the engine at a boundary that the instruction passes: Running, no
`In` waiting, no pause pending, no host action queued, no breakpoint check. DEDUCED (log entry 4), safe. -/
def State.placeInstruction (s : State) (ws : List Word) : State :=
  { s with
    mem := storeWords s.mem s.ip.toNat ws
    engine := .running
    waitInput := false
    pausePending := false
    host := []
    skipBp := s.skipBp || s.bp.contains s.ip.toNat }

/-! ## The memory arbiter (20_memory.md R76) -/

/-- Who asks for the memory port. -/
inductive Requester where
  | loader
  | engine
  | inspection
deriving DecidableEq, Repr

/-- The one requester that holds the grant: `none` is the time before the engine first enters Running. -/
def arbiterGrant : Option EngineState → Requester
  | none => .loader
  | some .running => .engine
  | some .paused => .inspection
  | some .halted => .inspection
  | some .faulted => .inspection

/-! ## The stack -/

/-- `Push(v)` below capacity (10_state.md R36). -/
def State.pushWord (s : State) (v : Word) : State := { s with stack := v :: s.stack }

/-- The stack after `Pop()` (10_state.md R37). -/
def State.dropTop (s : State) : State := { s with stack := s.stack.tail }

/-! ## Ports -/

/-- `Emit(b)`: one byte appended to the output stream (46_io.md R266). -/
def State.emit (s : State) (b : Byte) : State := { s with output := s.output ++ [b] }

/-- `RequestLine()`: one request on the input port and WAIT_INPUT = 1, unless a request is already outstanding (46_io.md
R271, R274, R280: "At most one request is outstanding"). -/
def State.requestLine (s : State) : State :=
  if s.waitInput then s else { s with waitInput := true, lineRequests := s.lineRequests + 1 }

/-- Take one answer off the answers the host has ready. -/
def State.takeAnswer (s : State) : State := { s with answers := s.answers.tail }

/-- `NextInputByte()` for a buffer that holds `b` and then `rest`: a newline empties the buffer, and the wait of the `In` is
over (46_io.md R272, R274). -/
def State.consume (s : State) (b : Byte) (rest : List Byte) : State :=
  { s with ib := if b = 10 then [] else rest, waitInput := false }

/-! ## Status (10_state.md R40) -/

/-- The code of an engine state in STATUS bits 1:0. -/
def EngineState.code : EngineState → Nat
  | .running => 0
  | .paused => 1
  | .halted => 2
  | .faulted => 3

/-- STATUS as the host reads it: STATE in bits 1:0, WAIT_INPUT in bit 2, the rest 0 (10_state.md R40). -/
def State.status (s : State) : Word := BitVec.ofNat 16 (s.engine.code + if s.waitInput then 4 else 0)

/-- `STATE <- e` by the engine or a host call (40_engine.md R131). -/
def State.setEngine (s : State) (e : EngineState) : State := { s with engine := e }

/-! ## Fatal faults (60_exceptions.md R300 to R311) -/

/-- The causes of 60_exceptions.md R301. -/
inductive Cause where
  | none
  | invalidOpcode
  | invalidOperand
  | stackUnderflow
  | divideByZero
  | invalidAddress
  | stackOverflow
  | inputEOF
  | loadError
deriving DecidableEq, Repr

/-- The codes of 60_exceptions.md R301. -/
def Cause.code : Cause → BitVec 4
  | .none => 0
  | .invalidOpcode => 1
  | .invalidOperand => 2
  | .stackUnderflow => 3
  | .divideByZero => 4
  | .invalidAddress => 5
  | .stackOverflow => 6
  | .inputEOF => 7
  | .loadError => 8

/-- `raise <Cause>(info)` (00_scope.md R19): what the core can raise, with the field each cause records besides the common
ones (60_exceptions.md R301). -/
inductive Trap where
  | invalidOpcode
  | invalidOperand (k : Nat)
  | stackUnderflow
  | divideByZero
  | invalidAddress (a : Nat)
  | stackOverflow
  | inputEOF
deriving DecidableEq, Repr

/-- The cause a trap reports. -/
def Trap.cause : Trap → Cause
  | .invalidOpcode => .invalidOpcode
  | .invalidOperand _ => .invalidOperand
  | .stackUnderflow => .stackUnderflow
  | .divideByZero => .divideByZero
  | .invalidAddress _ => .invalidAddress
  | .stackOverflow => .stackOverflow
  | .inputEOF => .inputEOF

/-- FADDR: the failing address for InvalidAddress, otherwise 0 (10_state.md R41). -/
def Trap.faddr : Trap → BitVec 17
  | .invalidAddress a => BitVec.ofNat 17 a
  | .invalidOpcode => 0
  | .invalidOperand _ => 0
  | .stackUnderflow => 0
  | .divideByZero => 0
  | .stackOverflow => 0
  | .inputEOF => 0

/-- FOPK: the index of the offending operand for InvalidOperand, otherwise 0 (10_state.md R41). -/
def Trap.fopk : Trap → BitVec 2
  | .invalidOperand k => BitVec.ofNat 2 k
  | .invalidOpcode => 0
  | .stackUnderflow => 0
  | .divideByZero => 0
  | .invalidAddress _ => 0
  | .stackOverflow => 0
  | .inputEOF => 0

/-- The record of a fault at `ip` after the words `ws` were fetched, the opcode word first; no word at all when the opcode
fetch itself faulted (10_state.md R41, 60_exceptions.md R310 (c)). -/
def faultRecord (ip : Word) (ws : List Word) (t : Trap) : FaultRecord :=
  { fcause := t.cause.code
    fip := ip
    fopc := ws.getD 0 0
    fopcV := if ws = [] then 0 else 1
    fnops := BitVec.ofNat 2 (ws.length - 1)
    fopn0 := ws.getD 1 0
    fopn1 := ws.getD 2 0
    fopn2 := ws.getD 3 0
    faddr := t.faddr
    fopk := t.fopk }

/-- Fault entry, the one operation every fault goes through (60_exceptions.md R310): the record is overwritten, WAIT_INPUT = 0,
STATE = Faulted, and nothing else changes. -/
def State.enterFault (s : State) (ws : List Word) (t : Trap) : State :=
  { s with fault := faultRecord s.ip ws t, waitInput := false, engine := .faulted }

/-- The words an instruction has fetched when it raises a trap: up to the offending operand for InvalidOperand
(60_exceptions.md R303), all of them otherwise. -/
def Trap.fetched (t : Trap) (i : Instr) : List Word :=
  match t with
  | .invalidOperand k => (encode i).take (k + 2)
  | .invalidOpcode => encode i
  | .stackUnderflow => encode i
  | .divideByZero => encode i
  | .invalidAddress _ => encode i
  | .stackOverflow => encode i
  | .inputEOF => encode i

/-- A `raise` by instruction `i` at IP (40_engine.md R137). -/
def State.raise (s : State) (i : Instr) (t : Trap) : State := s.enterFault (t.fetched i) t

/-- The return from Faulted, Halted or Paused: the host's `run` sets SKIP_BP = 1 and STATE = Running, and leaves the fault
record and IP (60_exceptions.md R320, R335). There is no return-from-trap instruction. -/
def State.resume (s : State) : State := { s with skipBp := true, engine := .running }

/-- The report of a run's end: success in Halted, failure with the fault record in Faulted (40_engine.md R139,
60_exceptions.md R310 (f)); none while the run has not ended. -/
def State.report (s : State) : Option (Except FaultRecord Unit) :=
  match s.engine with
  | .running => none
  | .paused => none
  | .halted => some (.ok ())
  | .faulted => some (.error s.fault)

/-! ## Successor and commit -/

/-- The sequential successor `IP + 1 + arity`, computed exactly, for an instruction that uses it; 65536 raises
InvalidAddress(65536) and IP never wraps (40_engine.md R136). DESIGN CHOICE beyond 65536 (log entry 18), safe. -/
def State.successor (s : State) (arity : Nat) : Except Trap Word :=
  if s.ip.toNat + 1 + arity ≤ 65535 then .ok (BitVec.ofNat 16 (s.ip.toNat + 1 + arity))
  else .error (.invalidAddress 65536)

/-- The end of an instruction: all its effects at once, or the fault it raised on the state before it (40_engine.md R135,
R137). -/
def State.commit (s : State) (i : Instr) : Except Trap State → Result
  | .ok t => .next t
  | .error tr => .next (s.raise i tr)

end Sys2Proof.Machine
end

