-- ==== Sys2Proof/Machine/Operands.lean ====
section
/-!
DEFINITION. Operand resolution and the write-target check (30_encoding.md R97 to R100), and the shapes the register-writing
instructions share: operands in order, then the successor, then the instruction's own fault, then the effects
(60_exceptions.md R313).
-/
namespace Sys2Proof.Machine

open Sys2Proof

/-- The value of an R operand: the literal itself or the register's current contents; none where 30_encoding.md R97 raises
InvalidOperand. -/
def State.operandValue (s : State) : Operand → Option Word
  | .literal v => if v.toNat ≤ 32767 then some v else none
  | .register k => some (s.getReg k)
  | .invalid _ => none

/-- `Resolve` of the operand with index `k` (30_encoding.md R97, R100). -/
def State.resolve (s : State) (k : Nat) (o : Operand) : Except Trap Word :=
  match s.operandValue o with
  | some v => .ok v
  | none => .error (.invalidOperand k)

/-- `CheckDst` of the operand with index `k`: the register it names; it is never read (30_encoding.md R99). -/
def dstReg (k : Nat) : Operand → Except Trap (Fin 8)
  | .register r => .ok r
  | .literal _ => .error (.invalidOperand k)
  | .invalid _ => .error (.invalidOperand k)

/-- The shape `dst, R`: check A, resolve B, use the successor, compute, write A, advance (format F2). -/
def State.writeUnary (s : State) (a b : Operand) (f : Word → Except Trap Word) : Except Trap State := do
  let d ← dstReg 0 a
  let vb ← s.resolve 1 b
  let succ ← s.successor 2
  let v ← f vb
  .ok ((s.setReg d v).setIp succ)

/-- The shape `dst, R, R`: check A, resolve B and C, use the successor, compute, write A, advance (format F3). -/
def State.writeBinary (s : State) (a b c : Operand) (f : Word → Word → Except Trap Word) : Except Trap State := do
  let d ← dstReg 0 a
  let vb ← s.resolve 1 b
  let vc ← s.resolve 2 c
  let succ ← s.successor 3
  let v ← f vb vc
  .ok ((s.setReg d v).setIp succ)

end Sys2Proof.Machine
end

