-- ==== Sys2Proof/Machine/Alu.lean ====
section
/-!
DEFINITION. Add, Mult, Mod, And, Or, Not (44_alu.md R220 to R240). Values are unsigned; sums and products are exact and then
reduced mod 32768.
-/
namespace Sys2Proof.Machine

open Sys2Proof

/-- `(vb + vc) mod 32768`, the sum exact (44_alu.md R220). -/
def addMod (b c : Word) : Word := BitVec.ofNat 16 ((b.toNat + c.toNat) % 32768)

/-- `(vb * vc) mod 32768`, the product exact (44_alu.md R223). -/
def multMod (b c : Word) : Word := BitVec.ofNat 16 ((b.toNat * c.toNat) % 32768)

/-- `vb mod vc`, the exact unsigned remainder with no mask; a divisor of 0 raises DivideByZero (44_alu.md R226 to R228). -/
def modWord (b c : Word) : Except Trap Word :=
  if c.toNat = 0 then .error .divideByZero else .ok (BitVec.ofNat 16 (b.toNat % c.toNat))

/-- `v AND 0x7FFF`: the 15-bit domain of And, Or and Not (44_alu.md R230, R233, R236). -/
def mask15 (v : Word) : Word := v &&& 0x7FFF

/-- Add (44_alu.md R220). -/
def execAdd (a b c : Operand) (s : State) : Result :=
  s.commit (.add a b c) (s.writeBinary a b c fun vb vc => .ok (addMod vb vc))

/-- Mult (44_alu.md R223). -/
def execMult (a b c : Operand) (s : State) : Result :=
  s.commit (.mult a b c) (s.writeBinary a b c fun vb vc => .ok (multMod vb vc))

/-- Mod (44_alu.md R226). -/
def execMod (a b c : Operand) (s : State) : Result :=
  s.commit (.mod a b c) (s.writeBinary a b c modWord)

/-- And (44_alu.md R230). -/
def execAnd (a b c : Operand) (s : State) : Result :=
  s.commit (.and a b c) (s.writeBinary a b c fun vb vc => .ok (mask15 (vb &&& vc)))

/-- Or (44_alu.md R233). -/
def execOr (a b c : Operand) (s : State) : Result :=
  s.commit (.or a b c) (s.writeBinary a b c fun vb vc => .ok (mask15 (vb ||| vc)))

/-- Not (44_alu.md R236). -/
def execNot (a b : Operand) (s : State) : Result :=
  s.commit (.not a b) (s.writeUnary a b fun vb => .ok (mask15 (~~~vb)))

end Sys2Proof.Machine
end

