-- ==== Sys2Proof/Machine/Flags.lean ====
section
/-!
DEFINITION. The block has no flags, condition codes or predicates (10_state.md R45). What stands in their place: the 0 or 1 a
comparison writes into a register (42_compare.md R180, R183) and the zero test of a conditional jump (43_control_transfer.md
R193, R196).
-/
namespace Sys2Proof.Machine

open Sys2Proof

/-- The result of a comparison: 1 if it holds, else 0 (42_compare.md R180). -/
def boolWord (b : Bool) : Word := if b then 1 else 0

/-- The test of a conditional jump: "Every nonzero value, from 1 to 65535, counts as true" (43_control_transfer.md R194). -/
def condTrue (v : Word) : Bool := v.toNat ≠ 0

end Sys2Proof.Machine
end

