-- ==== Sys2Proof/Machine/Compare.lean ====
section
/-!
DEFINITION. Eq and Gt (42_compare.md R180 to R184): unsigned comparisons of the resolved 16-bit values.
-/
namespace Sys2Proof.Machine

open Sys2Proof

/-- Eq (42_compare.md R180). -/
def execEq (a b c : Operand) (s : State) : Result :=
  s.commit (.eq a b c) (s.writeBinary a b c fun vb vc => .ok (boolWord (vb.toNat = vc.toNat)))

/-- Gt, unsigned and strict (42_compare.md R183). -/
def execGt (a b c : Operand) (s : State) : Result :=
  s.commit (.gt a b c) (s.writeBinary a b c fun vb vc => .ok (boolWord (vb.toNat > vc.toNat)))

end Sys2Proof.Machine
end

