-- ==== Sys2Proof/Machine/SetStack.lean ====
section
/-!
DEFINITION. Set, Push, Pop (41_set_stack.md R160 to R168).
-/
namespace Sys2Proof.Machine

open Sys2Proof

/-- `Push(v)` with its capacity check (10_state.md R36). -/
def State.pushChecked (s : State) (v : Word) : Except Trap State :=
  if s.stackCapacity ≤ s.stack.length then .error .stackOverflow else .ok (s.pushWord v)

/-- The effects of Push after the decode stage (41_set_stack.md R163). -/
def State.pushEffect (s : State) (a : Operand) : Except Trap State := do
  let va ← s.resolve 0 a
  let succ ← s.successor 1
  let t ← s.pushChecked va
  .ok (t.setIp succ)

/-- The effects of Pop: an empty stack raises StackUnderflow (41_set_stack.md R166, R167). -/
def State.popEffect (s : State) (a : Operand) : Except Trap State := do
  let d ← dstReg 0 a
  let succ ← s.successor 1
  match s.stack with
  | [] => .error .stackUnderflow
  | v :: _ => .ok ((s.dropTop.setReg d v).setIp succ)

/-- Set (41_set_stack.md R160). -/
def execSet (a b : Operand) (s : State) : Result :=
  s.commit (.set a b) (s.writeUnary a b fun vb => .ok vb)

/-- Push (41_set_stack.md R163). -/
def execPush (a : Operand) (s : State) : Result := s.commit (.push a) (s.pushEffect a)

/-- Pop (41_set_stack.md R166). -/
def execPop (a : Operand) (s : State) : Result := s.commit (.pop a) (s.popEffect a)

end Sys2Proof.Machine
end

