-- ==== Sys2Proof/Machine/Control.lean ====
section
/-!
DEFINITION. Control transfer: Jmp, JmpIfTrue, JmpIfFalse, Call, Ret (43_control_transfer.md R190 to R211), and the two
instructions that only move the machine, Halt and Noop (40_engine.md R140 to R142).
-/
namespace Sys2Proof.Machine

open Sys2Proof

/-- A conditional jump: both operands resolved first, the successor used only when the jump is not taken
(43_control_transfer.md R193, R194, R196, R197). -/
def State.branch (s : State) (a b : Operand) (taken : Word → Bool) : Except Trap State := do
  let va ← s.resolve 0 a
  let vb ← s.resolve 1 b
  if taken va then .ok (s.setIp vb)
  else do
    let succ ← s.successor 2
    .ok (s.setIp succ)

/-- Advance past an instruction with no operands (40_engine.md R142). -/
def State.advance (s : State) : Except Trap State := do
  let succ ← s.successor 0
  .ok (s.setIp succ)

/-- Advance and enter Halted (40_engine.md R140, 43_control_transfer.md R206). -/
def State.haltEffect (s : State) : Except Trap State := do
  let t ← s.advance
  .ok (t.setEngine .halted)

/-- The effects of Call: the return address is the successor, pushed with the capacity check; the target was resolved before
(43_control_transfer.md R200, R201). -/
def State.callEffect (s : State) (a : Operand) : Except Trap State := do
  let va ← s.resolve 0 a
  let succ ← s.successor 1
  let t ← s.pushChecked succ
  .ok (t.setIp va)

/-- The effects of Ret: an empty stack halts, otherwise the popped value is the target (43_control_transfer.md R205). -/
def State.retEffect (s : State) : Except Trap State :=
  match s.stack with
  | [] => s.haltEffect
  | v :: _ => .ok (s.dropTop.setIp v)

/-- Jmp; it does not use the successor (43_control_transfer.md R190). -/
def execJmp (a : Operand) (s : State) : Result :=
  s.commit (.jmp a) (do let va ← s.resolve 0 a; .ok (s.setIp va))

/-- JmpIfTrue (43_control_transfer.md R193). -/
def execJmpIfTrue (a b : Operand) (s : State) : Result :=
  s.commit (.jmpIfTrue a b) (s.branch a b condTrue)

/-- JmpIfFalse: "Only the value 0 counts as false" (43_control_transfer.md R196, R197). -/
def execJmpIfFalse (a b : Operand) (s : State) : Result :=
  s.commit (.jmpIfFalse a b) (s.branch a b fun v => !condTrue v)

/-- Call (43_control_transfer.md R200). -/
def execCall (a : Operand) (s : State) : Result := s.commit (.call a) (s.callEffect a)

/-- Ret (43_control_transfer.md R205). -/
def execRet (s : State) : Result := s.commit .ret s.retEffect

/-- Halt (40_engine.md R140). -/
def execHalt (s : State) : Result := s.commit .halt s.haltEffect

/-- Noop (40_engine.md R142). -/
def execNoop (s : State) : Result := s.commit .noop s.advance

end Sys2Proof.Machine
end

