-- ==== Sys2Proof/Machine/Io.lean ====
section
/-!
DEFINITION. Out and In (46_io.md R265 to R280).
-/
namespace Sys2Proof.Machine

open Sys2Proof

/-- The low byte of a word, `v[7:0]` (46_io.md R265, R266). -/
def lowByte (v : Word) : Byte := BitVec.ofNat 8 (v.toNat % 256)

/-- `zext_16(b)` (00_scope.md R17, 46_io.md R273). -/
def zeroExtend (b : Byte) : Word := BitVec.ofNat 16 b.toNat

/-- The effects of Out (46_io.md R265). -/
def State.outEffect (s : State) (a : Operand) : Except Trap State := do
  let va ← s.resolve 0 a
  let succ ← s.successor 1
  .ok ((s.emit (lowByte va)).setIp succ)

/-- Deliver byte `b` of a buffer `b, rest` to register `d` and advance (46_io.md R270, R272, R273). -/
def State.deliver (s : State) (d : Fin 8) (succ : Word) (b : Byte) (rest : List Byte) : State :=
  ((s.consume b rest).setReg d (zeroExtend b)).setIp succ

/-- An `In` that finds IB empty asks for a line. With no answer it waits: WAIT_INPUT = 1 and nothing else of it happens. With a
line it buffers the line and delivers its first byte, as one step; EOF and a zero-length line raise InputEOF (46_io.md R270,
R271, R274, R275). `s` is the state with the request made. DESIGN CHOICE (log entries 7 and 15), safe. -/
def State.receive (s : State) (i : Instr) (d : Fin 8) (succ : Word) : State :=
  match s.answers with
  | [] => s
  | .line (b :: rest) :: _ => s.takeAnswer.deliver d succ b rest
  | .line [] :: _ => s.takeAnswer.raise i .inputEOF
  | .eof :: _ => s.takeAnswer.raise i .inputEOF

/-- The decode stage and the successor of In: the destination and the successor, before any line is requested (46_io.md R270,
R276). -/
def State.inputTarget (s : State) (a : Operand) : Except Trap (Fin 8 × Word) := do
  let d ← dstReg 0 a
  let succ ← s.successor 1
  .ok (d, succ)

/-- Out (46_io.md R265). -/
def execOut (a : Operand) (s : State) : Result := s.commit (.out a) (s.outEffect a)

/-- In (46_io.md R270). -/
def execIn (a : Operand) (s : State) : Result :=
  match s.inputTarget a with
  | .error t => .next (s.raise (.input a) t)
  | .ok (d, succ) =>
    match s.ib with
    | b :: rest => .next (s.deliver d succ b rest)
    | [] => .next (s.requestLine.receive (.input a) d succ)

end Sys2Proof.Machine
end

