-- ==== Sys2Proof/Machine/MemoryOps.lean ====
section
/-!
DEFINITION. RMem and WMem (45_memory_ops.md R250 to R256). The one addressing mode is absolute: the effective address is the
resolved operand.
-/
namespace Sys2Proof.Machine

open Sys2Proof

/-- `MemRead(a, 1)` as an instruction's data read (20_memory.md R64, 45_memory_ops.md R250). -/
def State.loadWord (s : State) (a : Word) : Except Trap Word :=
  match s.memRead a.toNat with
  | some v => .ok v
  | none => .error (.invalidAddress a.toNat)

/-- The effects of WMem: address first, then value (45_memory_ops.md R254, R255). -/
def State.storeEffect (s : State) (a b : Operand) : Except Trap State := do
  let va ← s.resolve 0 a
  let vb ← s.resolve 1 b
  let succ ← s.successor 2
  .ok ((s.memWrite va vb).setIp succ)

/-- RMem (45_memory_ops.md R250). -/
def execRMem (a b : Operand) (s : State) : Result := s.commit (.rMem a b) (s.writeUnary a b s.loadWord)

/-- WMem (45_memory_ops.md R254). -/
def execWMem (a b : Operand) (s : State) : Result := s.commit (.wMem a b) (s.storeEffect a b)

end Sys2Proof.Machine
end

