-- ==== Sys2Proof/Machine/Fetch.lean ====
section
/-!
DEFINITION. Instruction fetch with the checks of execution-mode decode in their order (30_encoding.md R100, 40_engine.md R133,
60_exceptions.md R313 items 1 to 3). Every fetch reads memory as it stands (20_memory.md R74, 30_encoding.md R108).
-/
namespace Sys2Proof.Machine

open Sys2Proof

/-- A fault of the fetch: the words fetched so far, the opcode word first, and the trap raised. -/
structure FetchFault where
  words : List Word
  trap : Trap
deriving DecidableEq, Repr

/-- Fetch the operand words of the given kinds from address `addr` on; `k` is the index of the next one and `got` the words
fetched so far. Each is fetched and then checked before the next is fetched (30_encoding.md R100). -/
def State.fetchOperands (s : State) (addr k : Nat) (got : List Word) : List Kind → Except FetchFault (List Word)
  | [] => .ok got
  | kind :: kinds =>
    match s.memRead addr with
    | none => .error { words := got, trap := .invalidAddress addr }
    | some w =>
      if kind.accepts (.ofWord w) then s.fetchOperands (addr + 1) (k + 1) (got ++ [w]) kinds
      else .error { words := got ++ [w], trap := .invalidOperand k }

/-- Fetch the instruction at IP: its words, or the first fault of the decode stage (30_encoding.md R100). -/
def State.fetch (s : State) : Except FetchFault (List Word) :=
  match s.memRead s.ip.toNat with
  | none => .error { words := [], trap := .invalidAddress s.ip.toNat }
  | some op =>
    match Tag.ofWord op with
    | none => .error { words := [op], trap := .invalidOpcode }
    | some t => s.fetchOperands (s.ip.toNat + 1) 0 [op] t.kinds

end Sys2Proof.Machine
end

