-- ==== Sys2Proof/Machine/Engine.lean ====
section
/-!
DEFINITION. The engine's turn (40_engine.md R130 to R137): the boundary checks, one whole instruction, and the end of a single
step; and when no step is enabled.
-/
namespace Sys2Proof.Machine

open Sys2Proof

/-- One whole step `Step()` of 40_engine.md R137: fetch and decode at IP, execute, commit; a fault of the decode stage is
entered. The decoder cannot reject the words a fetch delivers; were it to, the opcode would be unknown. -/
def State.runInstruction (s : State) : Result :=
  match s.fetch with
  | .error f => .next (s.enterFault f.words f.trap)
  | .ok ws =>
    match decode ws with
    | .ok (i, _) => exec i s
    | .error _ => .next (s.enterFault ws .invalidOpcode)

/-- The end of a `step_one_instruction`: once its instruction no longer waits, STATE becomes Paused, unless the step entered
Halted or Faulted (60_exceptions.md R335). Outside a single step nothing changes. DEDUCED (log entry 11), safe. -/
def State.settle (s : State) : State :=
  if s.singleStep && !s.waitInput then
    { s with singleStep := false, engine := if s.engine = .running then .paused else s.engine }
  else s

/-- `settle` after a step that answered a next state. -/
def settleResult : Result → Result
  | .next s => .next s.settle
  | .fault f => .fault f
  | .refused r => .refused r

/-- Enter Paused at a boundary, which also serves a pending `pause` (60_exceptions.md R335, R336). -/
def State.enterPaused (s : State) : State := { s with engine := .paused, pausePending := false }

/-- The actions at an instruction boundary, in order: the breakpoint check (60_exceptions.md R336), a pending `pause` (R314),
the instruction. DEDUCED order of the first two (log entry 12), safe. -/
def State.boundary (s : State) : Result :=
  if s.skipBp then
    if s.pausePending then .next { s.enterPaused with skipBp := false }
    else settleResult { s with skipBp := false }.runInstruction
  else if s.bp.contains s.ip.toNat then .next s.enterPaused
  else if s.pausePending then .next s.enterPaused
  else settleResult s.runInstruction

/-- Why the engine has no step, or none when it has one: only Running steps (40_engine.md R131), and an `In` that waits steps
only when there is an answer (46_io.md R274). -/
def State.blocked (s : State) : Option Fault :=
  match s.engine with
  | .running => if s.waitInput && s.answers.isEmpty then some .waitingForInput else none
  | .paused => some .paused
  | .halted => some .halted
  | .faulted => some .faulted

/-- The engine's turn when it has a step: a waiting `In` takes its answer and completes, at no boundary (46_io.md R274);
otherwise the engine is at a boundary. DEDUCED that the `In` is fetched again (log entry 10), safe. -/
def State.engineTurn (s : State) : Result :=
  if s.waitInput then settleResult s.runInstruction else s.boundary

end Sys2Proof.Machine
end

