-- ==== Sys2Proof/Machine/HostPort.lean ====
section
/-!
DEFINITION. The host's actions: the calls of the inspection port (60_exceptions.md R328 to R337) and the answers on the input
port (46_io.md R274, R277, R280). Each happens at an instruction boundary or ends an `In`'s wait (00_scope.md R3).
-/
namespace Sys2Proof.Machine

open Sys2Proof

/-- Set a bit of the breakpoint set, keeping its addresses strictly rising (10_state.md R43). -/
def insertAddress : Nat → List Nat → List Nat
  | a, [] => [a]
  | a, b :: bs => if a < b then a :: b :: bs else if a = b then b :: bs else b :: insertAddress a bs

/-- `pause`: in Running at the next instruction boundary, or at once if an `In` is waiting, whose wait and request it abandons;
no effect in any other state (60_exceptions.md R335, 46_io.md R274). -/
def State.pauseCall (s : State) : State :=
  match s.engine with
  | .running =>
    if s.waitInput then { s with engine := .paused, waitInput := false, singleStep := false }
    else { s with pausePending := true }
  | .paused => s
  | .halted => s
  | .faulted => s

/-- `run`: no effect in Running, otherwise the resumption of 60_exceptions.md R335. -/
def State.runCall (s : State) : State :=
  match s.engine with
  | .running => s
  | .paused => s.resume
  | .halted => s.resume
  | .faulted => s.resume

/-- A call that is accepted: its reply and the state after it (60_exceptions.md R329 to R337). `step_one_instruction` from Paused
is `State.stepOne`; anywhere else it is refused. -/
def State.acceptedCall (s : State) : HostCall → HostReply × State
  | .getIp => (.word s.ip, s)
  | .setIp v => (.done, { s with ip := v })
  | .readMemoryWord addr => (.optWord (s.mem.read addr.toNat), s)
  | .writeMemoryWord addr value => (.done, s.memWrite addr value)
  | .readRegister idx => if h : idx < 8 then (.word (s.getReg ⟨idx, h⟩), s) else (.refused, s)
  | .writeRegister idx value => if h : idx < 8 then (.done, s.setReg ⟨idx, h⟩ value) else (.refused, s)
  | .readStack => (.stack s.stack.reverse, s)
  | .registerBreakpoint addr => (.done, { s with bp := insertAddress addr.toNat s.bp })
  | .getStatus => (.word s.status, s)
  | .isHalted => (.bool (s.engine = .halted), s)
  | .isFaulted => (.bool (s.engine = .faulted), s)
  | .getFault => (.fault s.fault, s)
  | .pause => (.done, s.pauseCall)
  | .run => (.done, s.runCall)
  | .stepOneInstruction => (.refused, s)

/-- The status and control calls, "accepted in every state" (60_exceptions.md R328): the rule's own list, `get_fault` in it.
DEDUCED that this list stands where 92_eei_decisions.md D25 leaves `get_fault` out (log entry 13), unsafe towards D25. -/
def HostCall.always : HostCall → Bool
  | .getStatus => true
  | .isHalted => true
  | .isFaulted => true
  | .getFault => true
  | .pause => true
  | .run => true
  | .getIp => false
  | .setIp _ => false
  | .readMemoryWord _ => false
  | .writeMemoryWord _ _ => false
  | .readRegister _ => false
  | .writeRegister _ _ => false
  | .readStack => false
  | .registerBreakpoint _ => false
  | .stepOneInstruction => false

/-- Any call but an accepted `step_one_instruction`: a state-access call is accepted only while the arbiter grants the memory
port to the inspection port, that is when STATE ≠ Running; otherwise it is refused and has no effect (60_exceptions.md R328,
20_memory.md R76). -/
def State.hostCall (s : State) (c : HostCall) : HostReply × State :=
  if c.always || arbiterGrant (some s.engine) = .inspection then s.acceptedCall c else (.refused, s)

/-- Record what the inspection port returned. -/
def State.reply (s : State) (r : HostReply) : State := { s with replies := s.replies ++ [r] }

/-- `step_one_instruction` from Paused: SKIP_BP is set to 1 and cleared again at the boundary it passes, and exactly one step is
performed (60_exceptions.md R335, R336). -/
def State.stepOne (s : State) : Result :=
  settleResult { s with engine := .running, skipBp := false, singleStep := true }.runInstruction

/-- One call of the inspection port, its reply recorded. `step_one_instruction` steps "from Paused only" (60_exceptions.md R335);
elsewhere it is refused. DEDUCED for Halted and Faulted (log entry 14), safe. -/
def State.doCall (s : State) (c : HostCall) : Result :=
  if c = .stepOneInstruction ∧ s.engine = .paused then (s.reply .done).stepOne
  else .next ((s.hostCall c).2.reply (s.hostCall c).1)

/-- An answer on the input port: the waiting `In` takes it and completes or faults, as one step (46_io.md R274, R275). With no
request outstanding there is nothing to answer and nothing changes (R280). DEDUCED (log entry 15), safe. -/
def State.doAnswer (s : State) (a : Answer) : Result :=
  if s.engine = .running ∧ s.waitInput then settleResult { s with answers := a :: s.answers }.runInstruction
  else .next s

/-- One action of the host. "A line the host intercepts is never delivered to the core" (46_io.md R277). -/
def State.hostTurn (s : State) : HostAction → Result
  | .call c => s.doCall c
  | .answer a => s.doAnswer a
  | .intercept _ => .next s

/-- One turn (00_scope.md R3): the host's next action at this instruction boundary if the list `host` has one, else the engine's. A
turn the host leaves to an engine that has no step passes; with no turn left the stop is named (40_engine.md R131, log entries 6
and 8). -/
def State.turn (s : State) : Result :=
  match s.host with
  | some action :: rest => State.hostTurn { s with host := rest } action
  | none :: rest =>
    match s.blocked with
    | some _ => .next { s with host := rest }
    | none => State.engineTurn { s with host := rest }
  | [] =>
    match s.blocked with
    | some f => .fault f
    | none => s.engineTurn

end Sys2Proof.Machine
end

