-- ==== Sys2Proof/Machine/Step.lean ====
section
/-!
DEFINITION. One step of the machine (00_scope.md R3), and how an instruction is placed where the next step fetches.
-/
namespace Sys2Proof.Machine

open Sys2Proof

/-- One step: one turn, the host's or the engine's (00_scope.md R3). -/
def step (s : State) : Host.Outcome State Fault Refusal := s.turn

/-- The state with the instruction `w` of `nbits` bits stored at IP, and the engine at a boundary that the instruction passes. -/
def State.withFetchWord (s : State) (nbits w : Nat) : State := s.placeInstruction (tableWords nbits w)

end Sys2Proof.Machine
end

