-- ==== Sys2Proof/Machine/Display.lean ====
section
/-!
DEFINITION. Display-mode decode (30_encoding.md R107): the display-only path, which execution never uses. It reads the cells
alone, resolves nothing and writes nothing.
-/
namespace Sys2Proof.Machine

open Sys2Proof

/-- What display mode shows at an address. -/
inductive Shown where
  /-- One of the 22 opcodes and its raw operand words, each absent where its cell is unset or beyond 65535. -/
  | known (t : Tag) (operands : List (Option Word))
  /-- `Unknown(w)`, "tolerated (echoed numerically)", with arity 0. -/
  | unknown (w : Word)
  /-- The opcode cell itself is unset or beyond 65535. DESIGN CHOICE (log entry 16), safe. -/
  | absent
deriving DecidableEq, Repr

/-- The cells of `n` operand words from address `a` on; nothing is read beyond 65535 (30_encoding.md R107 (b), (c)). -/
def displayOperands (m : Memory) (a : Nat) : Nat → List (Option Word)
  | 0 => []
  | n + 1 => (if a ≤ 65535 then m.read a else none) :: displayOperands m (a + 1) n

/-- Display-mode decode at an address (30_encoding.md R107). -/
def displayDecode (m : Memory) (a : Nat) : Shown :=
  match (if a ≤ 65535 then m.read a else none) with
  | none => .absent
  | some op =>
    match Tag.ofWord op with
    | none => .unknown op
    | some t => .known t (displayOperands m (a + 1) t.arity)

end Sys2Proof.Machine
end

