-- ==== Sys2Proof/Machine/Loader.lean ====
section
/-!
DEFINITION. The loader's image input (70_reset_and_hazards.md R350 to R354, 20_memory.md R63, R68). The loader is outside the
core; its output image and its LoadError are here.
-/
namespace Sys2Proof.Machine

open Sys2Proof

/-- The words of an image file: "word i is `byte[2i] + 256 * byte[2i+1]`, low byte first" (20_memory.md R63); none for a
trailing odd byte (70_reset_and_hazards.md R352). -/
def imageWords : List Byte → Option (List Word)
  | [] => some []
  | [_] => none
  | lo :: hi :: rest => (imageWords rest).map fun ws => BitVec.ofNat 16 (lo.toNat + 256 * hi.toNat) :: ws

/-- Word `i` of the image at address `i`, from address `a` on (70_reset_and_hazards.md R351). -/
def imageCells (a : Nat) : List Word → Memory
  | [] => []
  | w :: ws => (a, w) :: imageCells (a + 1) ws

/-- The state right after reset and the load of an image: cells 0 to N−1 set, the others unset, Running at IP = 0
(70_reset_and_hazards.md R351). -/
def State.loadImage (image : List Word) : State := { State.reset with mem := imageCells 0 image }

/-- What a load comes to: the machine in its first Running state; the loader's LoadError, after which the engine never enters
Running (70_reset_and_hazards.md R352, 60_exceptions.md R309); or a refusal, when the loader does not hold the memory port. -/
inductive LoadResult where
  | running (s : State)
  | loadError
  | refused
deriving DecidableEq, Repr

/-- Load a file, which only the time before the engine first enters Running (`none`) grants (20_memory.md R76): an odd number of
bytes or an image longer than 65536 words is a LoadError (70_reset_and_hazards.md R352). -/
def loadFile (phase : Option EngineState) (file : List Byte) : LoadResult :=
  if arbiterGrant phase = .loader then
    match imageWords file with
    | none => .loadError
    | some image => if image.length ≤ 65536 then .running (State.loadImage image) else .loadError
  else .refused

end Sys2Proof.Machine
end

