-- ==== Sys2Proof/Safety.lean ====
section
/-!
DEFINITION. What the claims about whole steps are stated with: the legal states (`State.Inv`), a waiting `In`, a well-formed
fault record, a turn that is the engine's, and the faults of the decode stage.
-/
namespace Sys2Proof.Machine

open Sys2Proof

/-- The instruction at IP is an `In` that passes its decode stage and its successor check, so it may wait for a line
(46_io.md R270, R274, R276). -/
def State.atIn (s : State) : Prop := (∃ w, s.fetch = .ok [20, w]) ∧ s.ip.toNat + 2 ≤ 65535

/-- A fault record as 10_state.md R41 describes it: no opcode word means no operand word, operand fields at or beyond FNOPS are
0, FADDR is 0 but for InvalidAddress, FOPK is 0 but for InvalidOperand, and the cause is one the core raises
(60_exceptions.md R301). -/
structure FaultRecord.Wf (r : FaultRecord) : Prop where
  opcode_valid : r.fopcV = 0 → r.fopc = 0 ∧ r.fnops = 0
  fopn0_beyond : r.fnops.toNat ≤ 0 → r.fopn0 = 0
  fopn1_beyond : r.fnops.toNat ≤ 1 → r.fopn1 = 0
  fopn2_beyond : r.fnops.toNat ≤ 2 → r.fopn2 = 0
  faddr_only : r.fcause ≠ 5 → r.faddr = 0
  fopk_only : r.fcause ≠ 2 → r.fopk = 0
  cause_of_core : r.fcause.toNat ≤ 7

/-- The breakpoint addresses rise strictly, from `lo` on, and are addresses. -/
def risingAddresses : Nat → List Nat → Bool
  | _, [] => true
  | lo, a :: as => lo ≤ a && a ≤ 65535 && risingAddresses (a + 1) as

/-- The legal states. Every step keeps them and reset is one. -/
structure State.Inv (s : State) : Prop where
  /-- The word store has its canonical form (10_state.md R39). -/
  mem_wf : s.mem.wf = true
  /-- STACK_CAPACITY is at least 1 (00_scope.md R11). -/
  capacity_pos : 1 ≤ s.stackCapacity
  /-- SP runs from 0 to STACK_CAPACITY (10_state.md R35). -/
  depth_le : s.stack.length ≤ s.stackCapacity
  /-- The input wait is in Running (46_io.md R274). -/
  wait_running : s.waitInput = true → s.engine = .running
  /-- An `In` waits only when IB is empty (46_io.md R271). -/
  wait_ib : s.waitInput = true → s.ib = []
  /-- WAIT_INPUT is 1 only while an `In` waits, with IP at it (10_state.md R40, 46_io.md R274). -/
  wait_at_in : s.waitInput = true → s.atIn
  /-- A pending pause waits for a boundary of a Running engine (60_exceptions.md R335). -/
  pause_running : s.pausePending = true → s.engine = .running ∧ s.waitInput = false
  /-- A single step is left unfinished only by an `In` that waits (60_exceptions.md R335). -/
  single_waits : s.singleStep = true → s.waitInput = true
  /-- The fault record is as 10_state.md R41 describes it. -/
  record_wf : s.fault.Wf
  /-- BP holds addresses, each once (10_state.md R43). -/
  bp_rising : risingAddresses 0 s.bp = true

/-- The coming turn is the engine's: the host has no action at this boundary. -/
def State.engineMoves (s : State) : Prop := s.host = [] ∨ ∃ rest, s.host = none :: rest

/-- The engine is at an instruction boundary that lets the instruction at IP run: Running, no `In` waiting, no pause pending, and
no breakpoint taken (40_engine.md R132, 60_exceptions.md R314, R336). -/
structure State.ready (s : State) : Prop where
  moves : s.engineMoves
  running : s.engine = .running
  notWaiting : s.waitInput = false
  noPause : s.pausePending = false
  noBreak : s.skipBp = true ∨ s.ip.toNat ∉ s.bp

/-- The state in which the instruction at a ready boundary runs: the turn is taken and SKIP_BP is 0 (60_exceptions.md R336). -/
def State.atInstruction (s : State) : State := { s with host := s.host.tail, skipBp := false }

/-- The decode stage at address `ip` faults with the words `ws` fetched and the trap, where `read` is what memory reads as: the
cases of 30_encoding.md R100 in the order of 60_exceptions.md R313 items 1 to 3, word by word. -/
inductive DecodeFault (read : Nat → Option Word) (ip : Nat) : List Word → Trap → Prop where
  /-- The opcode cell cannot be read. -/
  | opcodeUnset (h : read ip = none) : DecodeFault read ip [] (.invalidAddress ip)
  /-- The opcode word is unknown; no operand word is fetched. -/
  | unknownOpcode (op : Word) (h : read ip = some op) (hop : 22 ≤ op.toNat) : DecodeFault read ip [op] .invalidOpcode
  /-- After legal operand words, an operand cell cannot be read. -/
  | operandUnset (op : Word) (t : Tag) (ws : List Word) (h : read ip = some op) (ht : Tag.ofWord op = some t)
      (hlen : ws.length < t.arity) (hws : ∀ (j : Nat) (hj : j < ws.length), read (ip + 1 + j) = some ws[j])
      (hlegal : ((t.kinds.zip ws).all fun p => p.1.accepts (.ofWord p.2)) = true)
      (hnone : read (ip + 1 + ws.length) = none) :
      DecodeFault read ip (op :: ws) (.invalidAddress (ip + 1 + ws.length))
  /-- After legal operand words, an operand word is illegal for its kind. -/
  | operandIllegal (op : Word) (t : Tag) (ws : List Word) (w : Word) (kind : Kind) (h : read ip = some op)
      (ht : Tag.ofWord op = some t) (hws : ∀ (j : Nat) (hj : j < ws.length), read (ip + 1 + j) = some ws[j])
      (hlegal : ((t.kinds.zip ws).all fun p => p.1.accepts (.ofWord p.2)) = true)
      (hw : read (ip + 1 + ws.length) = some w) (hkind : t.kinds[ws.length]? = some kind)
      (hill : kind.accepts (.ofWord w) = false) :
      DecodeFault read ip (op :: ws ++ [w]) (.invalidOperand ws.length)

/-! ## What a frame keeps -/

/-- The debug state, the parameter and the host's side are the same (10_state.md R43, R44; 60_exceptions.md R314, R335). -/
structure State.SameHostSide (s t : State) : Prop where
  bp : t.bp = s.bp
  skipBp : t.skipBp = s.skipBp
  stackCapacity : t.stackCapacity = s.stackCapacity
  pausePending : t.pausePending = s.pausePending
  singleStep : t.singleStep = s.singleStep
  host : t.host = s.host
  replies : t.replies = s.replies

/-- The two character ports and the input buffer are the same (46_io.md R279, R280). -/
structure State.SamePorts (s t : State) : Prop where
  output : t.output = s.output
  ib : t.ib = s.ib
  lineRequests : t.lineRequests = s.lineRequests
  answers : t.answers = s.answers

/-- STATUS and the fault record are the same. -/
def State.SameStatus (s t : State) : Prop := t.engine = s.engine ∧ t.waitInput = s.waitInput ∧ t.fault = s.fault

/-- A fault was entered: Faulted, no wait, the record names IP, and registers, IP, stack and memory are untouched
(60_exceptions.md R310). -/
def State.FaultEntered (s t : State) : Prop :=
  t.engine = .faulted ∧ t.waitInput = false ∧ t.fault.fip = s.ip ∧ t.fault.fopcV = 1 ∧ t.ip = s.ip ∧ t.regs = s.regs ∧
    t.stack = s.stack ∧ t.mem = s.mem

end Sys2Proof.Machine

namespace Sys2Proof

/-- The tags whose instruction uses the successor on every path that raises no fault (40_engine.md R136). -/
def Tag.usesSuccessor : Tag → Bool
  | .jmp => false
  | .jmpIfTrue => false
  | .jmpIfFalse => false
  | .ret => false
  | .halt => true
  | .set => true
  | .push => true
  | .pop => true
  | .eq => true
  | .gt => true
  | .add => true
  | .mult => true
  | .mod => true
  | .and => true
  | .or => true
  | .not => true
  | .rMem => true
  | .wMem => true
  | .call => true
  | .out => true
  | .input => true
  | .noop => true

end Sys2Proof
end

