-- ==== Sys2Proof/Certificates/Slice0/Obligations.lean ====
section
/-!
DEFINITION. The statements about the model, for the provers. Where one says `s.operandValue b = some vb` it says that operand
`b` is legal and resolves to `vb` (30_encoding.md R97); `State.memRead` is `MemRead` (20_memory.md R64), `Memory.read` the cell
itself with its set bit. Fault entry is `State.enterFault`; what it does is stated by `FaultsArePrecise`.
-/

open Sys2Proof Sys2Proof.Machine

/-! ## Encoding and decode -/

/-- Decoding the words of an instruction gives it back, whatever words follow: for every well-formed instruction (30_encoding.md R90,
R92, R93, R96, R102), and for every instruction whose operands are the classes of words at all. The second clause, on operand words
that R100 has the decoder reject, is the model's choice (log entry 9): here they decode, and the fetch raises InvalidOperand. -/
def Obligations.EncodeThenDecodeReturnsTheInstruction : Prop :=
  ∀ (i : Instr) (rest : List Word),
    (i.wellFormed = true → decode (encode i ++ rest) = .ok (i, rest)) ∧
      ((∀ o ∈ i.operands, o.classed = true) → decode (encode i ++ rest) = .ok (i, rest))

/-- The other direction: what decodes to an instruction is exactly its words, so no two encodings share a meaning, and its length
is one word and its arity (30_encoding.md R90, R101, R106). That an illegal operand word decodes at all is log entry 9. -/
def Obligations.DecodeThenEncodeReturnsTheWords : Prop :=
  ∀ (ws rest : List Word) (i : Instr),
    decode ws = .ok (i, rest) →
      encode i ++ rest = ws ∧ ws.length = 1 + i.tag.arity + rest.length ∧ ∀ o ∈ i.operands, o.classed = true

/-- 30_encoding.md R92: literal, register address, invalid. -/
def Obligations.OperandWordsFallIntoThreeClasses : Prop :=
  ∀ w : Word,
    (w.toNat ≤ 32767 → Operand.ofWord w = .literal w) ∧
      (∀ k : Fin 8, w.toNat = 32768 + k.val → Operand.ofWord w = .register k) ∧
      (32776 ≤ w.toNat → Operand.ofWord w = .invalid w)

/-- 30_encoding.md R97 and R99: what an R operand word resolves to, and which W operand words are kept. -/
def Obligations.ResolveAndCheckDst : Prop :=
  ∀ (s : State) (k : Nat) (w : Word),
    (w.toNat ≤ 32767 → s.resolve k (.ofWord w) = .ok w ∧ dstReg k (.ofWord w) = .error (.invalidOperand k)) ∧
      (∀ r : Fin 8, w.toNat = 32768 + r.val →
        s.resolve k (.ofWord w) = .ok (s.getReg r) ∧ dstReg k (.ofWord w) = .ok r) ∧
      (32776 ≤ w.toNat →
        s.resolve k (.ofWord w) = .error (.invalidOperand k) ∧ dstReg k (.ofWord w) = .error (.invalidOperand k))

/-- Words written out from 30_encoding.md R96 and R102 and the examples of 95_test_vectors.md. That the Set with two illegal operand
words decodes, to an instruction that is not well formed, is the model's choice (log entry 9); its step faults (V4). -/
def Obligations.SpecWordsDecode : Prop :=
  decode [9, 32768, 4, 5] = .ok (.add (.register 0) (.literal 4) (.literal 5), []) ∧
    decode [19, 32768] = .ok (.out (.register 0), []) ∧
    decode [21, 0] = .ok (.noop, [0]) ∧
    decode [16, 100, 32775] = .ok (.wMem (.literal 100) (.register 7), []) ∧
    decode [7, 32768, 50] = .ok (.jmpIfTrue (.register 0) (.literal 50), []) ∧
    decode [1, 5, 32776] = .ok (.set (.literal 5) (.invalid 32776), []) ∧
    decode [22] = .error (.unknownOpcode 22)

/-- 30_encoding.md R104: at a ready boundary an opcode word from 22 to 65535, the register addresses among them, raises
InvalidOpcode and no operand word is fetched. -/
def Obligations.UnknownOpcodeFaults : Prop :=
  ∀ (s : State) (op : Word),
    s.ready → s.memRead s.ip.toNat = some op → 22 ≤ op.toNat →
      step s = .next (s.atInstruction.enterFault [op] .invalidOpcode).settle

/-- The decode stage word by word (30_encoding.md R100, 40_engine.md R133, 60_exceptions.md R313 items 1 and 3): an unreadable
opcode cell; an unreadable operand cell after legal operands, which includes address 65536; an illegal operand word after legal
operands, whatever the cells after it hold. -/
def Obligations.FetchFaultsComeInOrder : Prop :=
  ∀ s : State, s.ready →
    (s.memRead s.ip.toNat = none →
      step s = .next (s.atInstruction.enterFault [] (.invalidAddress s.ip.toNat)).settle) ∧
    ∀ (op : Word) (t : Tag) (ws : List Word),
      s.memRead s.ip.toNat = some op → Tag.ofWord op = some t → ws.length < t.arity →
      (∀ (j : Nat) (h : j < ws.length), s.memRead (s.ip.toNat + 1 + j) = some ws[j]) →
      ((t.kinds.zip ws).all fun p => p.1.accepts (.ofWord p.2)) = true →
      (s.memRead (s.ip.toNat + 1 + ws.length) = none →
        step s = .next
          (s.atInstruction.enterFault (op :: ws) (.invalidAddress (s.ip.toNat + 1 + ws.length))).settle) ∧
      (∀ (w : Word) (kind : Kind),
        s.memRead (s.ip.toNat + 1 + ws.length) = some w → t.kinds[ws.length]? = some kind →
        kind.accepts (.ofWord w) = false →
        step s = .next
          (s.atInstruction.enterFault (op :: ws ++ [w]) (.invalidOperand ws.length)).settle)

/-- When the words at IP decode to a well-formed instruction at a ready boundary, the step is `exec` of it; around it the step
takes the turn, clears SKIP_BP and ends a single step (40_engine.md R132, R134, R137; 60_exceptions.md R336). -/
def Obligations.StepRunsTheDecodedInstruction : Prop :=
  ∀ (s : State) (i : Instr) (ws : List Word),
    s.ready → decode ws = .ok (i, []) → i.wellFormed = true →
    (∀ (j : Nat) (h : j < ws.length), s.memRead (s.ip.toNat + j) = some ws[j]) →
      step s = settleResult (exec i s.atInstruction)

/-- 40_engine.md R136, first part, for every instruction that uses its successor on every path: with legal operands and succ =
65536 it raises InvalidAddress(65536), before any fault of its own and without requesting a line. -/
def Obligations.UsedSuccessorNeverWraps : Prop :=
  ∀ (s : State) (i : Instr),
    i.wellFormed = true → i.tag.usesSuccessor = true → s.ip.toNat + 1 + i.tag.arity = 65536 →
      exec i s = .next (s.enterFault (encode i) (.invalidAddress 65536))

/-- 30_encoding.md R105 and 60_exceptions.md R303 at execution: the first operand that is illegal for its kind is reported, with
FOPK its index and the words up to it, and nothing else of the instruction happens. -/
def Obligations.FirstIllegalOperandIsReported : Prop :=
  ∀ (s : State) (i : Instr) (k : Nat) (kind : Kind) (o : Operand),
    i.tag.kinds[k]? = some kind → i.operands[k]? = some o → kind.accepts o = false →
    (((i.tag.kinds.zip i.operands).take k).all fun p => p.1.accepts p.2) = true →
      exec i s = .next (s.enterFault ((encode i).take (k + 2)) (.invalidOperand k))

/-! ## Faults -/

/-- 60_exceptions.md R310: a step of a Running engine that ends in Faulted changes nothing but the fault record, WAIT_INPUT and
STATE (and, on InputEOF, the request and the answer on the input port, which are events of the port and no state of the
instruction). The record holds the cause, IP, the words fetched so far (all of the instruction's, unless the decode stage
faulted), FADDR and FOPK, and is the report. -/
def Obligations.FaultsArePrecise : Prop :=
  ∀ s t : State,
    s.engine = .running → s.runInstruction = .next t → t.engine = .faulted →
      ∃ (ws : List Word) (trap : Trap),
        t = { s with
              fault :=
                { fcause := trap.cause.code, fip := s.ip
                  fopc := ws.getD 0 0, fopcV := if ws = [] then 0 else 1
                  fnops := BitVec.ofNat 2 (ws.length - 1)
                  fopn0 := ws.getD 1 0, fopn1 := ws.getD 2 0, fopn2 := ws.getD 3 0
                  faddr := match trap with | .invalidAddress a => BitVec.ofNat 17 a | _ => 0
                  fopk := match trap with | .invalidOperand k => BitVec.ofNat 2 k | _ => 0 }
              waitInput := false
              engine := .faulted
              answers := t.answers
              lineRequests := t.lineRequests } ∧
        (match s.fetch with | .error f => ws = f.words ∧ trap = f.trap | .ok all => ws = all) ∧
        ws.length ≤ 4 ∧
        (∀ (j : Nat) (h : j < ws.length), s.memRead (s.ip.toNat + j) = some ws[j]) ∧
        (ws = [] ↔ s.memRead s.ip.toNat = none) ∧
        (trap ≠ .inputEOF → t.answers = s.answers ∧ t.lineRequests = s.lineRequests) ∧
        t.report = some (.error t.fault)

/-- 40_engine.md R131 and 46_io.md R274: with no host action, Halted, Faulted and Paused have no step, and neither has an `In` that
waits without an answer. -/
def Obligations.StoppedEngineHasNoStep : Prop :=
  ∀ s : State, s.host = [] →
    (s.engine = .halted → step s = .fault .halted) ∧
      (s.engine = .faulted → step s = .fault .faulted) ∧
      (s.engine = .paused → step s = .fault .paused) ∧
      (s.engine = .running → s.waitInput = true → s.answers = [] → step s = .fault .waitingForInput)

/-! ## Memory -/

/-- 20_memory.md R64, for every address, 65536 and above among them. -/
def Obligations.MemReadFollowsTheAliasRule : Prop :=
  ∀ (s : State) (a : Nat),
    (∀ v, a ≤ 65535 → s.mem.read a = some v → s.memRead a = some v) ∧
      (∀ k : Fin 8, a = 32768 + k.val → s.mem.read a = none → s.memRead a = some (s.getReg k)) ∧
      (65536 ≤ a → s.memRead a = none) ∧
      (a ≤ 65535 → s.mem.read a = none → ¬(32768 ≤ a ∧ a ≤ 32775) → s.memRead a = none)

/-- 20_memory.md R65: the cell holds the value and is set, every other cell is as before, no register changes, and writing the
same value twice leaves the same state. The last clause is about the model's own canonical form of memory (log entry 1). -/
def Obligations.MemWriteStoresUnconditionally : Prop :=
  ∀ (s : State) (a v : Word),
    (s.memWrite a v).mem.read a.toNat = some v ∧
      (∀ b, b ≠ a.toNat → (s.memWrite a v).mem.read b = s.mem.read b) ∧
      (s.memWrite a v).regs = s.regs ∧
      (s.memWrite a v).memWrite a v = s.memWrite a v ∧
      (s.mem.wf = true → (s.memWrite a v).mem.wf = true)

/-! ## Set, Push, Pop -/

/-- 41_set_stack.md R160. -/
def Obligations.SetCopiesTheSource : Prop :=
  ∀ (s : State) (d : Fin 8) (b : Operand) (vb : Word), s.operandValue b = some vb →
    (s.ip.toNat + 3 ≤ 65535 →
      exec (.set (.register d) b) s = .next { s with
        regs := s.regs.set d.val vb d.isLt, ip := BitVec.ofNat 16 (s.ip.toNat + 3) }) ∧
    (s.ip.toNat + 3 = 65536 →
      exec (.set (.register d) b) s =
        .next (s.enterFault [1, Operand.toWord (.register d), b.toWord] (.invalidAddress 65536)))

/-- 41_set_stack.md R163. -/
def Obligations.PushAppendsOrOverflows : Prop :=
  ∀ (s : State) (a : Operand) (va : Word), s.operandValue a = some va →
    (s.ip.toNat + 2 ≤ 65535 → s.stack.length < s.stackCapacity →
      exec (.push a) s = .next { s with stack := va :: s.stack, ip := BitVec.ofNat 16 (s.ip.toNat + 2) }) ∧
    (s.ip.toNat + 2 ≤ 65535 → s.stack.length = s.stackCapacity →
      exec (.push a) s = .next (s.enterFault [2, a.toWord] .stackOverflow)) ∧
    (s.ip.toNat + 2 = 65536 →
      exec (.push a) s = .next (s.enterFault [2, a.toWord] (.invalidAddress 65536)))

/-- 41_set_stack.md R166 and R167. -/
def Obligations.PopAssignsOrUnderflows : Prop :=
  ∀ (s : State) (d : Fin 8),
    (∀ (v : Word) (rest : List Word), s.stack = v :: rest → s.ip.toNat + 2 ≤ 65535 →
      exec (.pop (.register d)) s = .next { s with
        regs := s.regs.set d.val v d.isLt, stack := rest, ip := BitVec.ofNat 16 (s.ip.toNat + 2) }) ∧
    (s.stack = [] → s.ip.toNat + 2 ≤ 65535 →
      exec (.pop (.register d)) s = .next (s.enterFault [3, Operand.toWord (.register d)] .stackUnderflow)) ∧
    (s.ip.toNat + 2 = 65536 →
      exec (.pop (.register d)) s =
        .next (s.enterFault [3, Operand.toWord (.register d)] (.invalidAddress 65536)))

/-! ## Comparisons -/

/-- 42_compare.md R180. -/
def Obligations.EqWritesOneOrZero : Prop :=
  ∀ (s : State) (d : Fin 8) (b c : Operand) (vb vc : Word), s.operandValue b = some vb → s.operandValue c = some vc →
    (s.ip.toNat + 4 ≤ 65535 →
      exec (.eq (.register d) b c) s = .next { s with
        regs := s.regs.set d.val (if vb = vc then 1 else 0) d.isLt, ip := BitVec.ofNat 16 (s.ip.toNat + 4) }) ∧
    (s.ip.toNat + 4 = 65536 →
      exec (.eq (.register d) b c) s =
        .next (s.enterFault [4, Operand.toWord (.register d), b.toWord, c.toWord] (.invalidAddress 65536)))

/-- 42_compare.md R183: unsigned and strict. -/
def Obligations.GtWritesOneOrZero : Prop :=
  ∀ (s : State) (d : Fin 8) (b c : Operand) (vb vc : Word), s.operandValue b = some vb → s.operandValue c = some vc →
    (s.ip.toNat + 4 ≤ 65535 →
      exec (.gt (.register d) b c) s = .next { s with
        regs := s.regs.set d.val (if vc.toNat < vb.toNat then 1 else 0) d.isLt
        ip := BitVec.ofNat 16 (s.ip.toNat + 4) }) ∧
    (s.ip.toNat + 4 = 65536 →
      exec (.gt (.register d) b c) s =
        .next (s.enterFault [5, Operand.toWord (.register d), b.toWord, c.toWord] (.invalidAddress 65536)))

/-! ## Control transfer -/

/-- 43_control_transfer.md R190: whatever IP is, since the successor is not used. -/
def Obligations.JmpSetsIp : Prop :=
  ∀ (s : State) (a : Operand) (va : Word), s.operandValue a = some va →
    encode (.jmp a) = [6, a.toWord] ∧ exec (.jmp a) s = .next { s with ip := va }

/-- 43_control_transfer.md R193. -/
def Obligations.JmpIfTrueTestsForNonzero : Prop :=
  ∀ (s : State) (a b : Operand) (va vb : Word), s.operandValue a = some va → s.operandValue b = some vb →
    (va ≠ 0 → exec (.jmpIfTrue a b) s = .next { s with ip := vb }) ∧
    (va = 0 → s.ip.toNat + 3 ≤ 65535 →
      exec (.jmpIfTrue a b) s = .next { s with ip := BitVec.ofNat 16 (s.ip.toNat + 3) }) ∧
    (va = 0 → s.ip.toNat + 3 = 65536 →
      exec (.jmpIfTrue a b) s = .next (s.enterFault [7, a.toWord, b.toWord] (.invalidAddress 65536)))

/-- 43_control_transfer.md R196. -/
def Obligations.JmpIfFalseTestsForZero : Prop :=
  ∀ (s : State) (a b : Operand) (va vb : Word), s.operandValue a = some va → s.operandValue b = some vb →
    (va = 0 → exec (.jmpIfFalse a b) s = .next { s with ip := vb }) ∧
    (va ≠ 0 → s.ip.toNat + 3 ≤ 65535 →
      exec (.jmpIfFalse a b) s = .next { s with ip := BitVec.ofNat 16 (s.ip.toNat + 3) }) ∧
    (va ≠ 0 → s.ip.toNat + 3 = 65536 →
      exec (.jmpIfFalse a b) s = .next (s.enterFault [8, a.toWord, b.toWord] (.invalidAddress 65536)))

/-- 43_control_transfer.md R200. -/
def Obligations.CallPushesTheReturnAddress : Prop :=
  ∀ (s : State) (a : Operand) (va : Word), s.operandValue a = some va →
    (s.ip.toNat + 2 ≤ 65535 → s.stack.length < s.stackCapacity →
      exec (.call a) s = .next { s with stack := BitVec.ofNat 16 (s.ip.toNat + 2) :: s.stack, ip := va }) ∧
    (s.ip.toNat + 2 ≤ 65535 → s.stack.length = s.stackCapacity →
      exec (.call a) s = .next (s.enterFault [17, a.toWord] .stackOverflow)) ∧
    (s.ip.toNat + 2 = 65536 →
      exec (.call a) s = .next (s.enterFault [17, a.toWord] (.invalidAddress 65536)))

/-- 43_control_transfer.md R205 and R206: a popped value is the target at any IP; an empty stack halts. -/
def Obligations.RetPopsOrHalts : Prop :=
  ∀ s : State,
    (∀ (v : Word) (rest : List Word), s.stack = v :: rest → exec .ret s = .next { s with stack := rest, ip := v }) ∧
    (s.stack = [] → s.ip.toNat + 1 ≤ 65535 →
      exec .ret s = .next { s with ip := BitVec.ofNat 16 (s.ip.toNat + 1), engine := .halted }) ∧
    (s.stack = [] → s.ip.toNat + 1 = 65536 →
      exec .ret s = .next (s.enterFault [18] (.invalidAddress 65536)))

/-- 43_control_transfer.md R208, one level: after a Call, any code that leaves the stack as it found it and then executes Ret
comes back to the Call's IP + 2 with the stack the Call found. -/
def Obligations.CallThenRetReturns : Prop :=
  ∀ (s : State) (a : Operand) (va : Word),
    s.operandValue a = some va → s.ip.toNat + 2 ≤ 65535 → s.stack.length < s.stackCapacity →
      ∃ t, exec (.call a) s = .next t ∧ t.ip = va ∧
        ∀ u : State, u.stack = t.stack →
          exec .ret u = .next { u with stack := s.stack, ip := BitVec.ofNat 16 (s.ip.toNat + 2) }

/-! ## Halt and Noop -/

/-- 40_engine.md R140. -/
def Obligations.HaltAdvancesAndHalts : Prop :=
  ∀ s : State,
    (s.ip.toNat + 1 ≤ 65535 →
      exec .halt s = .next { s with ip := BitVec.ofNat 16 (s.ip.toNat + 1), engine := .halted }) ∧
    (s.ip.toNat + 1 = 65536 → exec .halt s = .next (s.enterFault [0] (.invalidAddress 65536)))

/-- 40_engine.md R142. -/
def Obligations.NoopAdvances : Prop :=
  ∀ s : State,
    (s.ip.toNat + 1 ≤ 65535 → exec .noop s = .next { s with ip := BitVec.ofNat 16 (s.ip.toNat + 1) }) ∧
    (s.ip.toNat + 1 = 65536 → exec .noop s = .next (s.enterFault [21] (.invalidAddress 65536)))

/-! ## ALU -/

/-- 44_alu.md R220. -/
def Obligations.AddWritesTheSumMod32768 : Prop :=
  ∀ (s : State) (d : Fin 8) (b c : Operand) (vb vc : Word), s.operandValue b = some vb → s.operandValue c = some vc →
    (s.ip.toNat + 4 ≤ 65535 →
      exec (.add (.register d) b c) s = .next { s with
        regs := s.regs.set d.val (BitVec.ofNat 16 ((vb.toNat + vc.toNat) % 32768)) d.isLt
        ip := BitVec.ofNat 16 (s.ip.toNat + 4) }) ∧
    (s.ip.toNat + 4 = 65536 →
      exec (.add (.register d) b c) s =
        .next (s.enterFault [9, Operand.toWord (.register d), b.toWord, c.toWord] (.invalidAddress 65536)))

/-- 44_alu.md R223. -/
def Obligations.MultWritesTheProductMod32768 : Prop :=
  ∀ (s : State) (d : Fin 8) (b c : Operand) (vb vc : Word), s.operandValue b = some vb → s.operandValue c = some vc →
    (s.ip.toNat + 4 ≤ 65535 →
      exec (.mult (.register d) b c) s = .next { s with
        regs := s.regs.set d.val (BitVec.ofNat 16 ((vb.toNat * vc.toNat) % 32768)) d.isLt
        ip := BitVec.ofNat 16 (s.ip.toNat + 4) }) ∧
    (s.ip.toNat + 4 = 65536 →
      exec (.mult (.register d) b c) s =
        .next (s.enterFault [10, Operand.toWord (.register d), b.toWord, c.toWord] (.invalidAddress 65536)))

/-- 44_alu.md R226 and R227: the exact remainder, with no mask; the successor check comes before DivideByZero. -/
def Obligations.ModWritesTheRemainderOrFaults : Prop :=
  ∀ (s : State) (d : Fin 8) (b c : Operand) (vb vc : Word), s.operandValue b = some vb → s.operandValue c = some vc →
    (s.ip.toNat + 4 ≤ 65535 → vc ≠ 0 →
      exec (.mod (.register d) b c) s = .next { s with
        regs := s.regs.set d.val (BitVec.ofNat 16 (vb.toNat % vc.toNat)) d.isLt
        ip := BitVec.ofNat 16 (s.ip.toNat + 4) }) ∧
    (s.ip.toNat + 4 ≤ 65535 → vc = 0 →
      exec (.mod (.register d) b c) s = .next (s.enterFault [11, Operand.toWord (.register d), b.toWord, c.toWord] .divideByZero)) ∧
    (s.ip.toNat + 4 = 65536 →
      exec (.mod (.register d) b c) s =
        .next (s.enterFault [11, Operand.toWord (.register d), b.toWord, c.toWord] (.invalidAddress 65536)))

/-- 44_alu.md R230. -/
def Obligations.AndWritesTheMaskedAnd : Prop :=
  ∀ (s : State) (d : Fin 8) (b c : Operand) (vb vc : Word), s.operandValue b = some vb → s.operandValue c = some vc →
    (s.ip.toNat + 4 ≤ 65535 →
      exec (.and (.register d) b c) s = .next { s with
        regs := s.regs.set d.val ((vb &&& vc) &&& 0x7FFF) d.isLt, ip := BitVec.ofNat 16 (s.ip.toNat + 4) }) ∧
    (s.ip.toNat + 4 = 65536 →
      exec (.and (.register d) b c) s =
        .next (s.enterFault [12, Operand.toWord (.register d), b.toWord, c.toWord] (.invalidAddress 65536)))

/-- 44_alu.md R233. -/
def Obligations.OrWritesTheMaskedOr : Prop :=
  ∀ (s : State) (d : Fin 8) (b c : Operand) (vb vc : Word), s.operandValue b = some vb → s.operandValue c = some vc →
    (s.ip.toNat + 4 ≤ 65535 →
      exec (.or (.register d) b c) s = .next { s with
        regs := s.regs.set d.val ((vb ||| vc) &&& 0x7FFF) d.isLt, ip := BitVec.ofNat 16 (s.ip.toNat + 4) }) ∧
    (s.ip.toNat + 4 = 65536 →
      exec (.or (.register d) b c) s =
        .next (s.enterFault [13, Operand.toWord (.register d), b.toWord, c.toWord] (.invalidAddress 65536)))

/-- 44_alu.md R236, in the rule's own second form: `32767 - (vb AND 0x7FFF)`. -/
def Obligations.NotComplementsFifteenBits : Prop :=
  ∀ (s : State) (d : Fin 8) (b : Operand) (vb : Word), s.operandValue b = some vb →
    (s.ip.toNat + 3 ≤ 65535 →
      exec (.not (.register d) b) s = .next { s with
        regs := s.regs.set d.val (BitVec.ofNat 16 (32767 - vb.toNat % 32768)) d.isLt
        ip := BitVec.ofNat 16 (s.ip.toNat + 3) }) ∧
    (s.ip.toNat + 3 = 65536 →
      exec (.not (.register d) b) s =
        .next (s.enterFault [14, Operand.toWord (.register d), b.toWord] (.invalidAddress 65536)))

/-- 44_alu.md R221 (g), R224 (f) and R240: Add and Mult are commutative on every pair of legal operands, and every result of Add, Mult,
And, Or and Not is at most 32767, Mod's too when its dividend is, and Eq's and Gt's is 0 or 1. -/
def Obligations.AluLaws : Prop :=
  ∀ (s t : State) (d : Fin 8) (b c : Operand) (vb vc : Word),
    s.operandValue b = some vb → s.operandValue c = some vc → s.ip.toNat + 4 ≤ 65535 →
      exec (.add (.register d) b c) s = exec (.add (.register d) c b) s ∧
      exec (.mult (.register d) b c) s = exec (.mult (.register d) c b) s ∧
      (∀ i ∈ [Instr.add (.register d) b c, .mult (.register d) b c, .and (.register d) b c, .or (.register d) b c,
          .not (.register d) b],
        exec i s = .next t → (t.getReg d).toNat ≤ 32767) ∧
      (vb.toNat ≤ 32767 → vc ≠ 0 → exec (.mod (.register d) b c) s = .next t → (t.getReg d).toNat ≤ 32767) ∧
      (∀ i ∈ [Instr.eq (.register d) b c, .gt (.register d) b c],
        exec i s = .next t → t.getReg d = 0 ∨ t.getReg d = 1)

/-! ## RMem and WMem -/

/-- 45_memory_ops.md R250. -/
def Obligations.RMemLoadsTheWord : Prop :=
  ∀ (s : State) (d : Fin 8) (b : Operand) (vb : Word), s.operandValue b = some vb →
    (∀ v : Word, s.memRead vb.toNat = some v → s.ip.toNat + 3 ≤ 65535 →
      exec (.rMem (.register d) b) s = .next { s with
        regs := s.regs.set d.val v d.isLt, ip := BitVec.ofNat 16 (s.ip.toNat + 3) }) ∧
    (s.memRead vb.toNat = none → s.ip.toNat + 3 ≤ 65535 →
      exec (.rMem (.register d) b) s =
        .next (s.enterFault [15, Operand.toWord (.register d), b.toWord] (.invalidAddress vb.toNat))) ∧
    (s.ip.toNat + 3 = 65536 →
      exec (.rMem (.register d) b) s =
        .next (s.enterFault [15, Operand.toWord (.register d), b.toWord] (.invalidAddress 65536)))

/-- 45_memory_ops.md R254: the address operand first, then the value. -/
def Obligations.WMemStoresTheWord : Prop :=
  ∀ (s : State) (a b : Operand) (va vb : Word), s.operandValue a = some va → s.operandValue b = some vb →
    (s.ip.toNat + 3 ≤ 65535 →
      exec (.wMem a b) s = .next { s with
        mem := s.mem.write va.toNat vb, ip := BitVec.ofNat 16 (s.ip.toNat + 3) }) ∧
    (s.ip.toNat + 3 = 65536 →
      exec (.wMem a b) s = .next (s.enterFault [16, a.toWord, b.toWord] (.invalidAddress 65536)))

/-- 20_memory.md R74 and 45_memory_ops.md R256: after a WMem every read of the stored address sees the stored word and every other
address reads as before (`read`); IP is at the next instruction, and its fetch, for every stored word, opcode or operand, delivers
the words `read` gives there where they decode to a well-formed instruction, and otherwise faults as the decode stage says. -/
def Obligations.SelfModificationIsSeenByTheNextFetch : Prop :=
  ∀ (s : State) (a b : Operand) (va vb : Word) (read : Nat → Option Word),
    s.operandValue a = some va → s.operandValue b = some vb → s.ip.toNat + 3 ≤ 65535 →
    (∀ x, read x = if x = va.toNat then some vb else s.memRead x) →
      ∃ t, exec (.wMem a b) s = .next t ∧
        (∀ x, t.memRead x = read x) ∧
        t.ip.toNat = s.ip.toNat + 3 ∧
        (∀ (ws : List Word) (i : Instr), decode ws = .ok (i, []) → i.wellFormed = true →
          (∀ (j : Nat) (h : j < ws.length), read (s.ip.toNat + 3 + j) = some ws[j]) → t.fetch = .ok ws) ∧
        (∀ (ws : List Word) (trap : Trap), DecodeFault read (s.ip.toNat + 3) ws trap →
          t.fetch = .error { words := ws, trap := trap })

/-! ## Out and In -/

/-- 46_io.md R265 and R266. -/
def Obligations.OutEmitsTheLowByte : Prop :=
  ∀ (s : State) (a : Operand) (va : Word), s.operandValue a = some va →
    (s.ip.toNat + 2 ≤ 65535 →
      exec (.out a) s = .next { s with
        output := s.output ++ [BitVec.ofNat 8 (va.toNat % 256)], ip := BitVec.ofNat 16 (s.ip.toNat + 2) }) ∧
    (s.ip.toNat + 2 = 65536 →
      exec (.out a) s = .next (s.enterFault [19, a.toWord] (.invalidAddress 65536)))

/-- 46_io.md R272 and R273: the head byte of IB is delivered zero-extended, with no request on the port, and a newline empties the
buffer. -/
def Obligations.InDeliversTheHeadByte : Prop :=
  ∀ (s : State) (d : Fin 8) (b : Byte) (rest : List Byte), s.ib = b :: rest → s.ip.toNat + 2 ≤ 65535 →
    exec (.input (.register d)) s = .next { s with
      regs := s.regs.set d.val (BitVec.ofNat 16 b.toNat) d.isLt
      ib := if b = 10 then [] else rest
      waitInput := false
      ip := BitVec.ofNat 16 (s.ip.toNat + 2) }

/-- 46_io.md R270, R271, R275, R276 with IB empty: one request is made (none again while one is outstanding), and the `In` waits,
takes the first byte of a line and buffers the rest, or raises InputEOF; succ = 65536 faults with no request, whatever IB holds. That a
ready answer is taken in the same step is the model's choice (log entry 7), and that an EOF is consumed and its request stays counted
is the model's reading (log entry 15). -/
def Obligations.InRequestsALineWhenTheBufferIsEmpty : Prop :=
  ∀ (s : State) (d : Fin 8),
    (s.ip.toNat + 2 = 65536 →
      exec (.input (.register d)) s =
        .next (s.enterFault [20, Operand.toWord (.register d)] (.invalidAddress 65536))) ∧
    (s.ip.toNat + 2 ≤ 65535 → s.ib = [] →
      (s.answers = [] →
        exec (.input (.register d)) s = .next { s with
          waitInput := true
          lineRequests := if s.waitInput then s.lineRequests else s.lineRequests + 1 }) ∧
      (∀ (b : Byte) (rest : List Byte) (more : List Answer), s.answers = .line (b :: rest) :: more →
        exec (.input (.register d)) s = .next { s with
          regs := s.regs.set d.val (BitVec.ofNat 16 b.toNat) d.isLt
          ib := if b = 10 then [] else rest
          waitInput := false
          lineRequests := if s.waitInput then s.lineRequests else s.lineRequests + 1
          answers := more
          ip := BitVec.ofNat 16 (s.ip.toNat + 2) }) ∧
      (∀ more : List Answer, (s.answers = .eof :: more ∨ s.answers = .line [] :: more) →
        exec (.input (.register d)) s = .next
          ({ s with
            answers := more
            lineRequests := if s.waitInput then s.lineRequests else s.lineRequests + 1 }.enterFault
              [20, Operand.toWord (.register d)] .inputEOF)))

/-- 46_io.md R274, R275, R277, R280; 60_exceptions.md R335. An answer ends the wait: the waiting `In` completes or faults in that one
step, and so ends a `step_one_instruction` it belongs to, in Paused or in Faulted. The answer is the host's action at this turn, or one
that stood ready at the engine's own turn (log entries 7 and 15). A line the host intercepts changes nothing, and the `In` keeps waiting;
an answer with no request outstanding has no effect (log entry 15). That the `In` is fetched again is log entry 10, and that its single
step waits in Running is log entry 11. -/
def Obligations.AnAnswerEndsTheWait : Prop :=
  (∀ (s : State) (d : Fin 8),
    s.engine = .running → s.waitInput = true → s.ib = [] →
    s.memRead s.ip.toNat = some 20 → s.memRead (s.ip.toNat + 1) = some (BitVec.ofNat 16 (32768 + d.val)) →
    s.ip.toNat + 2 ≤ 65535 →
      ∀ (ans : Answer) (hs : List (Option HostAction)) (more : List Answer),
        (s.host = some (.answer ans) :: hs ∧ more = s.answers ∨
          s.engineMoves ∧ hs = s.host.tail ∧ s.answers = ans :: more) →
          (∀ (b : Byte) (rest : List Byte), ans = .line (b :: rest) →
            step s = .next { s with
              host := hs
              answers := more
              regs := s.regs.set d.val (BitVec.ofNat 16 b.toNat) d.isLt
              ib := if b = 10 then [] else rest
              waitInput := false
              ip := BitVec.ofNat 16 (s.ip.toNat + 2)
              singleStep := false
              engine := if s.singleStep then .paused else .running }) ∧
          ((ans = .eof ∨ ans = .line []) →
            step s = .next ({ s with host := hs, answers := more, singleStep := false }.enterFault
              [20, BitVec.ofNat 16 (32768 + d.val)] .inputEOF))) ∧
    (∀ (s : State) (line : List Byte) (hs : List (Option HostAction)),
      s.host = some (.intercept line) :: hs → step s = .next { s with host := hs }) ∧
    (∀ (s : State) (ans : Answer) (hs : List (Option HostAction)),
      s.host = some (.answer ans) :: hs → s.engine ≠ .running ∨ s.waitInput = false →
        step s = .next { s with host := hs })

/-! ## Frames -/

/-- What the instructions that write a register and neither stack, memory nor port leave alone: every register but the
destination, the stack, EVERY cell of memory, the ports, the debug state; STATUS and the fault record but for a fault entry. -/
def Obligations.RegisterWritersFrame : Prop :=
  ∀ (a b c : Operand) (i : Instr) (s t : State),
    i ∈ [Instr.set a b, .eq a b c, .gt a b c, .add a b c, .mult a b c, .mod a b c, .and a b c, .or a b c, .not a b,
      .rMem a b] →
    exec i s = .next t →
      (∀ k, a ≠ .register k → t.getReg k = s.getReg k) ∧
      (∀ x, t.mem.read x = s.mem.read x) ∧
      t.stack = s.stack ∧ s.SameHostSide t ∧ s.SamePorts t ∧ (s.SameStatus t ∨ s.FaultEntered t)

/-- What the stack and control instructions leave alone. Pop writes its destination; Push and Call add one entry, Pop and Ret take
one; Halt and Ret may enter Halted. -/
def Obligations.StackAndControlFrame : Prop :=
  ∀ (a b : Operand) (i : Instr) (s t : State),
    i ∈ [Instr.push a, .pop a, .jmp a, .jmpIfTrue a b, .jmpIfFalse a b, .call a, .ret, .halt, .noop] →
    exec i s = .next t →
      (∀ k, i ≠ .pop (.register k) → t.getReg k = s.getReg k) ∧
      (∀ x, t.mem.read x = s.mem.read x) ∧
      s.SameHostSide t ∧ s.SamePorts t ∧
      (i = .push a ∨ i = .call a → t.stack = s.stack ∨ t.stack.tail = s.stack) ∧
      (i = .pop a ∨ i = .ret → t.stack = s.stack ∨ t.stack = s.stack.tail) ∧
      (i ≠ .push a → i ≠ .call a → i ≠ .pop a → i ≠ .ret → t.stack = s.stack) ∧
      (s.SameStatus t ∨ s.FaultEntered t ∨
        (i = .halt ∨ i = .ret) ∧ t.engine = .halted ∧ t.waitInput = s.waitInput ∧ t.fault = s.fault)

/-- What WMem leaves alone: every register, the stack, the ports, and every cell but the one its address operand resolves to. -/
def Obligations.WMemFrame : Prop :=
  ∀ (a b : Operand) (s t : State), exec (.wMem a b) s = .next t →
    t.regs = s.regs ∧ t.stack = s.stack ∧ s.SameHostSide t ∧ s.SamePorts t ∧
    (∀ (va : Word) (x : Nat), s.operandValue a = some va → x ≠ va.toNat → t.mem.read x = s.mem.read x) ∧
    (s.operandValue a = none → ∀ x, t.mem.read x = s.mem.read x) ∧
    (s.SameStatus t ∨ s.FaultEntered t)

/-- What Out and In leave alone: every cell of memory, the stack, every register but In's destination, the debug state; Out all of the
input side, In the output stream. -/
def Obligations.PortFrame : Prop :=
  ∀ (a : Operand) (s t : State),
    (exec (.out a) s = .next t →
      t.regs = s.regs ∧ (∀ x, t.mem.read x = s.mem.read x) ∧ t.stack = s.stack ∧ s.SameHostSide t ∧
      t.ib = s.ib ∧ t.lineRequests = s.lineRequests ∧ t.answers = s.answers ∧
      (s.SameStatus t ∨ s.FaultEntered t)) ∧
    (exec (.input a) s = .next t →
      (∀ k, a ≠ .register k → t.getReg k = s.getReg k) ∧ (∀ x, t.mem.read x = s.mem.read x) ∧
      t.stack = s.stack ∧ s.SameHostSide t ∧ t.output = s.output ∧
      (t.engine = s.engine ∧ t.fault = s.fault ∨ s.FaultEntered t))

/-- Over all instructions: which write a register, and which one of the eight; which change the stack, memory, the output
stream, the input side (10_state.md R32, R38; 45_memory_ops.md; 46_io.md R265, R270). -/
def Obligations.OnlyItsOwnInstructionsChangeEachPart : Prop :=
  ∀ (i : Instr) (s t : State), exec i s = .next t →
    (∀ k, t.getReg k ≠ s.getReg k →
      i.operands.head? = some (.register k) ∧
      i.tag ∈ [Tag.set, .pop, .eq, .gt, .add, .mult, .mod, .and, .or, .not, .rMem, .input]) ∧
    (t.stack ≠ s.stack → i.tag ∈ [Tag.push, .pop, .call, .ret]) ∧
    (t.mem ≠ s.mem → i.tag = .wMem) ∧
    (t.output ≠ s.output → i.tag = .out ∧ ∃ b, t.output = s.output ++ [b]) ∧
    (t.ib ≠ s.ib ∨ t.lineRequests ≠ s.lineRequests ∨ t.answers ≠ s.answers → i.tag = .input) ∧
    s.SameHostSide t

/-- 10_state.md R46: no instruction reaches STATUS, the fault record, BP or SKIP_BP: two states that differ only there end with the same
registers, IP, stack, memory, buffer and output. The one exception is the line request of an `In`: with a request outstanding, which is
WAIT_INPUT, none is made (46_io.md R280), so only there can the count of requests differ. -/
def Obligations.NoInstructionReadsStatusOrDebugState : Prop :=
  ∀ (i : Instr) (s t : State) (e : EngineState) (w : Bool) (f : FaultRecord) (bp : List Nat) (skip : Bool),
    exec i s = .next t →
      ∃ u, exec i { s with engine := e, waitInput := w, fault := f, bp := bp, skipBp := skip } = .next u ∧
        u.regs = t.regs ∧ u.ip = t.ip ∧ u.stack = t.stack ∧ u.mem = t.mem ∧ u.ib = t.ib ∧ u.output = t.output ∧
        u.answers = t.answers ∧
        (i.tag ≠ .input ∨ w = s.waitInput → u.lineRequests = t.lineRequests) ∧
        (w = true → u.lineRequests = s.lineRequests)

/-! ## Whole steps -/

/-- 40_engine.md R131 and R138: a turn of a Running engine leaves Running only by Halt, by Ret on an empty stack, by a fault, or at a
breakpoint, a pending pause or the end of a single step. -/
def Obligations.RunEndsOnlyByHaltRetOrFault : Prop :=
  ∀ s t : State, s.engineMoves → s.engine = .running → step s = .next t → t.engine ≠ .running →
    (t.engine = .halted ∧ (s.fetch = .ok [0] ∨ s.fetch = .ok [18] ∧ s.stack = [])) ∨
      (t.engine = .faulted ∧ t.fault.fip = s.ip ∧ t.ip = s.ip) ∨
      (t.engine = .paused ∧ (s.ip.toNat ∈ s.bp ∨ s.pausePending = true ∨ s.singleStep = true))

/-- Every step, the host's actions among them, takes a legal state to a legal state (`State.Inv`). -/
def Obligations.EveryStepKeepsTheInvariant : Prop :=
  ∀ s t : State, s.Inv → step s = .next t → t.Inv

/-- Reset is a legal state. -/
def Obligations.ResetMeetsTheInvariant : Prop := State.reset.Inv

/-- 70_reset_and_hazards.md R350. -/
def Obligations.ResetState : Prop :=
  (∀ k, State.reset.getReg k = 0) ∧ State.reset.ip = 0 ∧ State.reset.stack = [] ∧
    (∀ a, State.reset.mem.read a = none) ∧ State.reset.ib = [] ∧ State.reset.engine = .running ∧
    State.reset.waitInput = false ∧
    State.reset.fault =
      { fcause := 0, fip := 0, fopc := 0, fopcV := 0, fnops := 0, fopn0 := 0, fopn1 := 0, fopn2 := 0, faddr := 0, fopk := 0 } ∧
    State.reset.bp = [] ∧ State.reset.skipBp = false ∧ State.reset.output = []

/-- 70_reset_and_hazards.md R354. That the first turn from reset is the engine's, with no pause pending and no host action, is the
model's choice (log entry 5), and that the loaded state is Running with the image in place its reading of the load (log entry 4). -/
def Obligations.EmptyImageFaultsAtZero : Prop :=
  step (State.loadImage []) = .next ((State.loadImage []).enterFault [] (.invalidAddress 0))

/-- 70_reset_and_hazards.md R351 and R352: the image is placed low byte first from address 0, everything else is as at reset; an odd
byte count or more than 65536 words is a LoadError. That memory is in its canonical form is about the model's own form (log entry 1). -/
def Obligations.LoaderPlacesTheImage : Prop :=
  ∀ file : List Byte,
    (file.length % 2 = 1 → loadFile none file = .loadError) ∧
    (file.length % 2 = 0 → 131072 < file.length → loadFile none file = .loadError) ∧
    (file.length % 2 = 0 → file.length ≤ 131072 →
      ∃ m : Memory, loadFile none file = .running { State.reset with mem := m } ∧
        (∀ i lo hi, file[2 * i]? = some lo → file[2 * i + 1]? = some hi →
          m.read i = some (BitVec.ofNat 16 (lo.toNat + 256 * hi.toNat))) ∧
        (∀ i, file.length ≤ 2 * i → m.read i = none) ∧ m.wf = true)

/-- 30_encoding.md R107. That it writes and resolves nothing is its type: it takes the cells alone and answers no state. -/
def Obligations.DisplayModeNeverFaults : Prop :=
  ∀ (m : Memory) (a : Nat) (op : Word), a ≤ 65535 → m.read a = some op →
    (22 ≤ op.toNat → displayDecode m a = .unknown op) ∧
    (∀ t, Tag.ofWord op = some t →
      ∃ ops, displayDecode m a = .known t ops ∧ ops.length = t.arity ∧
        ∀ k o, ops[k]? = some o → o = if a + 1 + k ≤ 65535 then m.read (a + 1 + k) else none)

/-! ## Status and the host's calls -/

/-- 10_state.md R40, the fields: STATE in bits 1:0, WAIT_INPUT in bit 2, bits 15:3 read as 0. -/
def Obligations.StatusWordFields : Prop :=
  ∀ s : State,
    (s.engine = .running → s.status.toNat % 4 = 0) ∧ (s.engine = .paused → s.status.toNat % 4 = 1) ∧
      (s.engine = .halted → s.status.toNat % 4 = 2) ∧ (s.engine = .faulted → s.status.toNat % 4 = 3) ∧
      s.status.getLsbD 2 = s.waitInput ∧ ∀ j, 3 ≤ j → s.status.getLsbD j = false

/-- 60_exceptions.md R336: with SKIP_BP = 0 a breakpoint at IP pauses before anything is fetched (that it serves a pending pause too is
log entry 12); with SKIP_BP = 1 there is no check and the boundary clears it: the instruction at IP runs, whatever it is, and the engine
does not pause but for a pending pause or the end of a single step. With SKIP_BP = 0 and no breakpoint at IP it runs as well. -/
def Obligations.BreakpointPausesBeforeTheFetch : Prop :=
  ∀ s : State, s.engineMoves → s.engine = .running → s.waitInput = false →
    (s.skipBp = false → s.ip.toNat ∈ s.bp →
      step s = .next { s with host := s.host.tail, engine := .paused, pausePending := false }) ∧
    (s.skipBp = true → ∀ t, step s = .next t → t.skipBp = false) ∧
    (s.skipBp = true ∨ s.ip.toNat ∉ s.bp → s.pausePending = false →
      step s = settleResult s.atInstruction.runInstruction ∧
      (s.singleStep = false → step s = s.atInstruction.runInstruction) ∧
      (s.singleStep = false → ∀ t, step s = .next t → t.engine ≠ .paused))

/-- 60_exceptions.md R335 (`pause`, `run`), R314 and R320; 46_io.md R274: what the two calls do in each engine state, and that a
pending pause is taken at the next boundary, before the fetch. How replies are recorded is log entry 20; that a breakpoint at the same
boundary and the pending pause are one Paused, and that SKIP_BP is cleared there, is log entry 12. -/
def Obligations.PauseAndRunCalls : Prop :=
  ∀ (s : State) (rest : List (Option HostAction)),
    (s.host = some (.call .pause) :: rest →
      (s.engine = .running → s.waitInput = true →
        step s = .next ({ s with host := rest, engine := .paused, waitInput := false, singleStep := false }.reply .done)) ∧
      (s.engine = .running → s.waitInput = false →
        step s = .next ({ s with host := rest, pausePending := true }.reply .done)) ∧
      (s.engine ≠ .running → step s = .next ({ s with host := rest }.reply .done))) ∧
    (s.host = some (.call .run) :: rest →
      (s.engine = .running → step s = .next ({ s with host := rest }.reply .done)) ∧
      (s.engine ≠ .running →
        step s = .next ({ s with host := rest, skipBp := true, engine := .running }.reply .done))) ∧
    (s.engineMoves → s.engine = .running → s.waitInput = false → s.pausePending = true →
      step s = .next { s with host := s.host.tail, engine := .paused, pausePending := false, skipBp := false })

/-- 60_exceptions.md R335 (`step_one_instruction`): from Paused it executes exactly the instruction at IP, whatever breakpoint is there,
or enters the fault of the decode stage there (R313 items 1 to 3). It ends in Paused, Halted or Faulted, unless the instruction is an
`In` that waits (log entry 11). How the reply is recorded is log entry 20. -/
def Obligations.StepOneInstructionStepsOnce : Prop :=
  ∀ (s : State) (rest : List (Option HostAction)),
    s.host = some (.call .stepOneInstruction) :: rest → s.engine = .paused → s.waitInput = false →
      (∀ (i : Instr) (ws : List Word), decode ws = .ok (i, []) → i.wellFormed = true →
        (∀ (j : Nat) (h : j < ws.length), s.memRead (s.ip.toNat + j) = some ws[j]) →
          step s = settleResult
            (exec i ({ s with host := rest, engine := .running, skipBp := false, singleStep := true }.reply .done))) ∧
      (∀ (ws : List Word) (trap : Trap), DecodeFault s.memRead s.ip.toNat ws trap →
        step s = .next
          (({ s with host := rest, engine := .running, skipBp := false, singleStep := false }.reply .done).enterFault
            ws trap)) ∧
      ∃ t, step s = .next t ∧
        ((t.waitInput = true ∧ t.engine = .running ∧ t.singleStep = true ∧ s.memRead s.ip.toNat = some 20) ∨
          (t.waitInput = false ∧ t.singleStep = false ∧ t.engine ≠ .running))

/-- 60_exceptions.md R328: a state-access call in Running is refused and has no effect; the status and control calls are accepted in
every state. That `get_fault` is one of these, as R328 lists it and D25 does not, is the model's reading (log entry 13); how replies are
recorded is log entry 20. -/
def Obligations.StateAccessIsRefusedWhileRunning : Prop :=
  ∀ (s : State) (c : HostCall) (rest : List (Option HostAction)), s.host = some (.call c) :: rest →
    (c.always = false → s.engine = .running → step s = .next ({ s with host := rest }.reply .refused)) ∧
    (c.always = true → ∃ t r, step s = .next t ∧ t.replies = s.replies ++ [r] ∧ r ≠ .refused)

/-- 60_exceptions.md R329 to R334, R336 (`register_breakpoint`) and R337: the reply and the effect of each call, in the states in which
R328 accepts it. That `get_fault` is answered in Running too, as R328 lists it and D25 does not, is the model's reading (log entry 13);
the form of the replies is log entry 20. -/
def Obligations.InspectionCallContracts : Prop :=
  ∀ s : State,
    (s.engine ≠ .running →
      (∀ a, s.hostCall (.readMemoryWord a) = (.optWord (s.mem.read a.toNat), s)) ∧
      (∀ a v, s.hostCall (.writeMemoryWord a v) = (.done, { s with mem := s.mem.write a.toNat v })) ∧
      (∀ k : Fin 8, s.hostCall (.readRegister k.val) = (.word (s.getReg k), s)) ∧
      (∀ k : Fin 8, ∀ v, s.hostCall (.writeRegister k.val v) = (.done, { s with regs := s.regs.set k.val v k.isLt })) ∧
      (∀ n v, 8 ≤ n → s.hostCall (.readRegister n) = (.refused, s) ∧ s.hostCall (.writeRegister n v) = (.refused, s)) ∧
      s.hostCall .readStack = (.stack s.stack.reverse, s) ∧
      s.hostCall .getIp = (.word s.ip, s) ∧
      (∀ v, s.hostCall (.setIp v) = (.done, { s with ip := v })) ∧
      (∀ a, ∃ u, s.hostCall (.registerBreakpoint a) = (.done, u) ∧ u = { s with bp := u.bp } ∧
        ∀ x, x ∈ u.bp ↔ x = a.toNat ∨ x ∈ s.bp)) ∧
    s.hostCall .isHalted = (.bool (s.engine = .halted), s) ∧
    s.hostCall .isFaulted = (.bool (s.engine = .faulted), s) ∧
    s.hostCall .getStatus = (.word s.status, s) ∧
    s.hostCall .getFault = (.fault s.fault, s)
end

