-- ==== Sys2Proof/Laws/Decode.lean ====
section
/-!
SUPPORT. Small lemmas about the decoder's tables and operand words.
-/
namespace Sys2Proof

theorem Tag.ofWord_value (t : Tag) : Tag.ofWord (BitVec.ofNat 16 t.value) = some t := by
  cases t <;> decide

theorem Tag.value_of_ofWord {op : Word} {t : Tag} (h : Tag.ofWord op = some t) : BitVec.ofNat 16 t.value = op := by
  have := List.find?_some h
  simp only [beq_iff_eq] at this
  rw [this]; simp

theorem Tag.value_le (t : Tag) : t.value ≤ 21 := by cases t <;> decide

/-- The unknown opcodes are 22 to 65535. -/
theorem Tag.ofWord_eq_none (op : Word) : Tag.ofWord op = none ↔ 22 ≤ op.toNat := by
  constructor
  · intro h
    by_contra hlt
    have known : ∀ k : Fin 22, (Tag.ofWord (BitVec.ofNat 16 k.val)).isSome = true := by decide
    simpa [h] using known ⟨op.toNat, by omega⟩
  · intro h
    cases ht : Tag.ofWord op with
    | none => rfl
    | some t =>
      have hv := congrArg BitVec.toNat (Tag.value_of_ofWord ht)
      rw [BitVec.toNat_ofNat] at hv
      have := t.value_le
      omega

theorem Tag.arity_le (t : Tag) : t.arity ≤ 3 := by cases t <;> decide

theorem Instr.operands_length (i : Instr) : i.operands.length = i.tag.arity := by cases i <;> rfl

theorem encode_length (i : Instr) : (encode i).length = 1 + i.tag.arity := by
  simp [encode, Instr.operands_length, Nat.add_comm]

theorem encode_ne_nil (i : Instr) : encode i ≠ [] := by simp [encode]

theorem Operand.ofWord_literal {w : Word} (h : w.toNat ≤ 32767) : Operand.ofWord w = .literal w := by
  simp [Operand.ofWord, h]

theorem Operand.ofWord_register (k : Fin 8) : Operand.ofWord (BitVec.ofNat 16 (32768 + k.val)) = .register k := by
  revert k; decide

theorem Operand.toWord_ofWord (w : Word) : (Operand.ofWord w).toWord = w := by
  unfold Operand.ofWord
  split
  · rfl
  · split
    · rename_i h h'
      simp only [Operand.toWord, Fin.ofNat]
      apply BitVec.eq_of_toNat_eq
      simp only [BitVec.toNat_ofNat]
      omega
    · rfl

theorem Operand.classed_ofWord (w : Word) : (Operand.ofWord w).classed = true := by
  unfold Operand.ofWord
  split
  · rename_i h; simp [Operand.classed, h]
  · split
    · rfl
    · simp only [Operand.classed, decide_eq_true_eq]; omega

theorem Operand.ofWord_toWord {o : Operand} (h : o.classed = true) : Operand.ofWord o.toWord = o := by
  cases o with
  | literal v =>
    have h : v.toNat ≤ 32767 := by simpa [Operand.classed] using h
    exact Operand.ofWord_literal h
  | register k => exact Operand.ofWord_register k
  | invalid w =>
    have h : 32776 ≤ w.toNat := by simpa [Operand.classed] using h
    show Operand.ofWord w = .invalid w
    unfold Operand.ofWord
    rw [if_neg (by omega), if_neg (by omega)]

theorem Kind.accepts_r (o : Operand) : Kind.r.accepts o = o.readable := by cases o <;> rfl

theorem Kind.accepts_w (o : Operand) : Kind.w.accepts o = o.writable := by cases o <;> rfl

/-- What a decoded instruction came from: the opcode word of its tag and its operand words. -/
theorem decodeTag_ok {t : Tag} {ws : List Word} {i : Instr} {rest : List Word} (h : decodeTag t ws = .ok (i, rest)) :
    i.tag = t ∧ ∃ os : List Word, i.operands = os.map Operand.ofWord ∧ os.length = t.arity ∧ ws = os ++ rest := by
  cases t <;> rcases ws with _ | ⟨a, _ | ⟨b, _ | ⟨c, ws⟩⟩⟩ <;>
    simp only [decodeTag, decode1, decode2, decode3, Except.ok.injEq, Prod.mk.injEq, reduceCtorEq] at h <;>
    obtain ⟨rfl, rfl⟩ := h
  all_goals first
    | exact ⟨rfl, [], rfl, rfl, rfl⟩
    | exact ⟨rfl, [a], rfl, rfl, rfl⟩
    | exact ⟨rfl, [a, b], rfl, rfl, rfl⟩
    | exact ⟨rfl, [a, b, c], rfl, rfl, rfl⟩

/-- Enough operand words always decode. -/
theorem decodeTag_total (t : Tag) (os : List Word) (h : os.length = t.arity) : ∃ i, decodeTag t os = .ok (i, []) := by
  cases t <;> rcases os with _ | ⟨a, _ | ⟨b, _ | ⟨c, _ | ⟨d, ws⟩⟩⟩⟩ <;>
    first
    | exact ⟨_, rfl⟩
    | simp [Tag.arity, Tag.kinds, Tag.row] at h

end Sys2Proof
end

