-- ==== Sys2Proof/Laws/State.lean ====
section
/-!
SUPPORT. What every state update does to every field: one lemma per field per update, so that no proof unfolds a record update.
-/
namespace Sys2Proof.Machine

open Sys2Proof

section
variable (s : State)

@[simp] theorem State.setReg_regs (k : Fin 8) (v : Word) : (s.setReg k v).regs = s.regs.set k.val v k.isLt := rfl
@[simp] theorem State.setReg_ip (k : Fin 8) (v : Word) : (s.setReg k v).ip = s.ip := rfl
@[simp] theorem State.setReg_stack (k : Fin 8) (v : Word) : (s.setReg k v).stack = s.stack := rfl
@[simp] theorem State.setReg_stackCapacity (k : Fin 8) (v : Word) : (s.setReg k v).stackCapacity = s.stackCapacity := rfl
@[simp] theorem State.setReg_mem (k : Fin 8) (v : Word) : (s.setReg k v).mem = s.mem := rfl
@[simp] theorem State.setReg_engine (k : Fin 8) (v : Word) : (s.setReg k v).engine = s.engine := rfl
@[simp] theorem State.setReg_waitInput (k : Fin 8) (v : Word) : (s.setReg k v).waitInput = s.waitInput := rfl
@[simp] theorem State.setReg_fault (k : Fin 8) (v : Word) : (s.setReg k v).fault = s.fault := rfl
@[simp] theorem State.setReg_ib (k : Fin 8) (v : Word) : (s.setReg k v).ib = s.ib := rfl
@[simp] theorem State.setReg_bp (k : Fin 8) (v : Word) : (s.setReg k v).bp = s.bp := rfl
@[simp] theorem State.setReg_skipBp (k : Fin 8) (v : Word) : (s.setReg k v).skipBp = s.skipBp := rfl
@[simp] theorem State.setReg_output (k : Fin 8) (v : Word) : (s.setReg k v).output = s.output := rfl
@[simp] theorem State.setReg_pausePending (k : Fin 8) (v : Word) : (s.setReg k v).pausePending = s.pausePending := rfl
@[simp] theorem State.setReg_singleStep (k : Fin 8) (v : Word) : (s.setReg k v).singleStep = s.singleStep := rfl
@[simp] theorem State.setReg_lineRequests (k : Fin 8) (v : Word) : (s.setReg k v).lineRequests = s.lineRequests := rfl
@[simp] theorem State.setReg_answers (k : Fin 8) (v : Word) : (s.setReg k v).answers = s.answers := rfl
@[simp] theorem State.setReg_host (k : Fin 8) (v : Word) : (s.setReg k v).host = s.host := rfl
@[simp] theorem State.setReg_replies (k : Fin 8) (v : Word) : (s.setReg k v).replies = s.replies := rfl

@[simp] theorem State.setIp_regs (v : Word) : (s.setIp v).regs = s.regs := rfl
@[simp] theorem State.setIp_ip (v : Word) : (s.setIp v).ip = v := rfl
@[simp] theorem State.setIp_stack (v : Word) : (s.setIp v).stack = s.stack := rfl
@[simp] theorem State.setIp_stackCapacity (v : Word) : (s.setIp v).stackCapacity = s.stackCapacity := rfl
@[simp] theorem State.setIp_mem (v : Word) : (s.setIp v).mem = s.mem := rfl
@[simp] theorem State.setIp_engine (v : Word) : (s.setIp v).engine = s.engine := rfl
@[simp] theorem State.setIp_waitInput (v : Word) : (s.setIp v).waitInput = s.waitInput := rfl
@[simp] theorem State.setIp_fault (v : Word) : (s.setIp v).fault = s.fault := rfl
@[simp] theorem State.setIp_ib (v : Word) : (s.setIp v).ib = s.ib := rfl
@[simp] theorem State.setIp_bp (v : Word) : (s.setIp v).bp = s.bp := rfl
@[simp] theorem State.setIp_skipBp (v : Word) : (s.setIp v).skipBp = s.skipBp := rfl
@[simp] theorem State.setIp_output (v : Word) : (s.setIp v).output = s.output := rfl
@[simp] theorem State.setIp_pausePending (v : Word) : (s.setIp v).pausePending = s.pausePending := rfl
@[simp] theorem State.setIp_singleStep (v : Word) : (s.setIp v).singleStep = s.singleStep := rfl
@[simp] theorem State.setIp_lineRequests (v : Word) : (s.setIp v).lineRequests = s.lineRequests := rfl
@[simp] theorem State.setIp_answers (v : Word) : (s.setIp v).answers = s.answers := rfl
@[simp] theorem State.setIp_host (v : Word) : (s.setIp v).host = s.host := rfl
@[simp] theorem State.setIp_replies (v : Word) : (s.setIp v).replies = s.replies := rfl

@[simp] theorem State.memWrite_regs (a v : Word) : (s.memWrite a v).regs = s.regs := rfl
@[simp] theorem State.memWrite_ip (a v : Word) : (s.memWrite a v).ip = s.ip := rfl
@[simp] theorem State.memWrite_stack (a v : Word) : (s.memWrite a v).stack = s.stack := rfl
@[simp] theorem State.memWrite_stackCapacity (a v : Word) : (s.memWrite a v).stackCapacity = s.stackCapacity := rfl
@[simp] theorem State.memWrite_mem (a v : Word) : (s.memWrite a v).mem = s.mem.write a.toNat v := rfl
@[simp] theorem State.memWrite_engine (a v : Word) : (s.memWrite a v).engine = s.engine := rfl
@[simp] theorem State.memWrite_waitInput (a v : Word) : (s.memWrite a v).waitInput = s.waitInput := rfl
@[simp] theorem State.memWrite_fault (a v : Word) : (s.memWrite a v).fault = s.fault := rfl
@[simp] theorem State.memWrite_ib (a v : Word) : (s.memWrite a v).ib = s.ib := rfl
@[simp] theorem State.memWrite_bp (a v : Word) : (s.memWrite a v).bp = s.bp := rfl
@[simp] theorem State.memWrite_skipBp (a v : Word) : (s.memWrite a v).skipBp = s.skipBp := rfl
@[simp] theorem State.memWrite_output (a v : Word) : (s.memWrite a v).output = s.output := rfl
@[simp] theorem State.memWrite_pausePending (a v : Word) : (s.memWrite a v).pausePending = s.pausePending := rfl
@[simp] theorem State.memWrite_singleStep (a v : Word) : (s.memWrite a v).singleStep = s.singleStep := rfl
@[simp] theorem State.memWrite_lineRequests (a v : Word) : (s.memWrite a v).lineRequests = s.lineRequests := rfl
@[simp] theorem State.memWrite_answers (a v : Word) : (s.memWrite a v).answers = s.answers := rfl
@[simp] theorem State.memWrite_host (a v : Word) : (s.memWrite a v).host = s.host := rfl
@[simp] theorem State.memWrite_replies (a v : Word) : (s.memWrite a v).replies = s.replies := rfl

@[simp] theorem State.pushWord_regs (v : Word) : (s.pushWord v).regs = s.regs := rfl
@[simp] theorem State.pushWord_ip (v : Word) : (s.pushWord v).ip = s.ip := rfl
@[simp] theorem State.pushWord_stack (v : Word) : (s.pushWord v).stack = v :: s.stack := rfl
@[simp] theorem State.pushWord_stackCapacity (v : Word) : (s.pushWord v).stackCapacity = s.stackCapacity := rfl
@[simp] theorem State.pushWord_mem (v : Word) : (s.pushWord v).mem = s.mem := rfl
@[simp] theorem State.pushWord_engine (v : Word) : (s.pushWord v).engine = s.engine := rfl
@[simp] theorem State.pushWord_waitInput (v : Word) : (s.pushWord v).waitInput = s.waitInput := rfl
@[simp] theorem State.pushWord_fault (v : Word) : (s.pushWord v).fault = s.fault := rfl
@[simp] theorem State.pushWord_ib (v : Word) : (s.pushWord v).ib = s.ib := rfl
@[simp] theorem State.pushWord_bp (v : Word) : (s.pushWord v).bp = s.bp := rfl
@[simp] theorem State.pushWord_skipBp (v : Word) : (s.pushWord v).skipBp = s.skipBp := rfl
@[simp] theorem State.pushWord_output (v : Word) : (s.pushWord v).output = s.output := rfl
@[simp] theorem State.pushWord_pausePending (v : Word) : (s.pushWord v).pausePending = s.pausePending := rfl
@[simp] theorem State.pushWord_singleStep (v : Word) : (s.pushWord v).singleStep = s.singleStep := rfl
@[simp] theorem State.pushWord_lineRequests (v : Word) : (s.pushWord v).lineRequests = s.lineRequests := rfl
@[simp] theorem State.pushWord_answers (v : Word) : (s.pushWord v).answers = s.answers := rfl
@[simp] theorem State.pushWord_host (v : Word) : (s.pushWord v).host = s.host := rfl
@[simp] theorem State.pushWord_replies (v : Word) : (s.pushWord v).replies = s.replies := rfl

@[simp] theorem State.dropTop_regs : (s.dropTop).regs = s.regs := rfl
@[simp] theorem State.dropTop_ip : (s.dropTop).ip = s.ip := rfl
@[simp] theorem State.dropTop_stack : (s.dropTop).stack = s.stack.tail := rfl
@[simp] theorem State.dropTop_stackCapacity : (s.dropTop).stackCapacity = s.stackCapacity := rfl
@[simp] theorem State.dropTop_mem : (s.dropTop).mem = s.mem := rfl
@[simp] theorem State.dropTop_engine : (s.dropTop).engine = s.engine := rfl
@[simp] theorem State.dropTop_waitInput : (s.dropTop).waitInput = s.waitInput := rfl
@[simp] theorem State.dropTop_fault : (s.dropTop).fault = s.fault := rfl
@[simp] theorem State.dropTop_ib : (s.dropTop).ib = s.ib := rfl
@[simp] theorem State.dropTop_bp : (s.dropTop).bp = s.bp := rfl
@[simp] theorem State.dropTop_skipBp : (s.dropTop).skipBp = s.skipBp := rfl
@[simp] theorem State.dropTop_output : (s.dropTop).output = s.output := rfl
@[simp] theorem State.dropTop_pausePending : (s.dropTop).pausePending = s.pausePending := rfl
@[simp] theorem State.dropTop_singleStep : (s.dropTop).singleStep = s.singleStep := rfl
@[simp] theorem State.dropTop_lineRequests : (s.dropTop).lineRequests = s.lineRequests := rfl
@[simp] theorem State.dropTop_answers : (s.dropTop).answers = s.answers := rfl
@[simp] theorem State.dropTop_host : (s.dropTop).host = s.host := rfl
@[simp] theorem State.dropTop_replies : (s.dropTop).replies = s.replies := rfl

@[simp] theorem State.emit_regs (b : Byte) : (s.emit b).regs = s.regs := rfl
@[simp] theorem State.emit_ip (b : Byte) : (s.emit b).ip = s.ip := rfl
@[simp] theorem State.emit_stack (b : Byte) : (s.emit b).stack = s.stack := rfl
@[simp] theorem State.emit_stackCapacity (b : Byte) : (s.emit b).stackCapacity = s.stackCapacity := rfl
@[simp] theorem State.emit_mem (b : Byte) : (s.emit b).mem = s.mem := rfl
@[simp] theorem State.emit_engine (b : Byte) : (s.emit b).engine = s.engine := rfl
@[simp] theorem State.emit_waitInput (b : Byte) : (s.emit b).waitInput = s.waitInput := rfl
@[simp] theorem State.emit_fault (b : Byte) : (s.emit b).fault = s.fault := rfl
@[simp] theorem State.emit_ib (b : Byte) : (s.emit b).ib = s.ib := rfl
@[simp] theorem State.emit_bp (b : Byte) : (s.emit b).bp = s.bp := rfl
@[simp] theorem State.emit_skipBp (b : Byte) : (s.emit b).skipBp = s.skipBp := rfl
@[simp] theorem State.emit_output (b : Byte) : (s.emit b).output = s.output ++ [b] := rfl
@[simp] theorem State.emit_pausePending (b : Byte) : (s.emit b).pausePending = s.pausePending := rfl
@[simp] theorem State.emit_singleStep (b : Byte) : (s.emit b).singleStep = s.singleStep := rfl
@[simp] theorem State.emit_lineRequests (b : Byte) : (s.emit b).lineRequests = s.lineRequests := rfl
@[simp] theorem State.emit_answers (b : Byte) : (s.emit b).answers = s.answers := rfl
@[simp] theorem State.emit_host (b : Byte) : (s.emit b).host = s.host := rfl
@[simp] theorem State.emit_replies (b : Byte) : (s.emit b).replies = s.replies := rfl

@[simp] theorem State.takeAnswer_regs : (s.takeAnswer).regs = s.regs := rfl
@[simp] theorem State.takeAnswer_ip : (s.takeAnswer).ip = s.ip := rfl
@[simp] theorem State.takeAnswer_stack : (s.takeAnswer).stack = s.stack := rfl
@[simp] theorem State.takeAnswer_stackCapacity : (s.takeAnswer).stackCapacity = s.stackCapacity := rfl
@[simp] theorem State.takeAnswer_mem : (s.takeAnswer).mem = s.mem := rfl
@[simp] theorem State.takeAnswer_engine : (s.takeAnswer).engine = s.engine := rfl
@[simp] theorem State.takeAnswer_waitInput : (s.takeAnswer).waitInput = s.waitInput := rfl
@[simp] theorem State.takeAnswer_fault : (s.takeAnswer).fault = s.fault := rfl
@[simp] theorem State.takeAnswer_ib : (s.takeAnswer).ib = s.ib := rfl
@[simp] theorem State.takeAnswer_bp : (s.takeAnswer).bp = s.bp := rfl
@[simp] theorem State.takeAnswer_skipBp : (s.takeAnswer).skipBp = s.skipBp := rfl
@[simp] theorem State.takeAnswer_output : (s.takeAnswer).output = s.output := rfl
@[simp] theorem State.takeAnswer_pausePending : (s.takeAnswer).pausePending = s.pausePending := rfl
@[simp] theorem State.takeAnswer_singleStep : (s.takeAnswer).singleStep = s.singleStep := rfl
@[simp] theorem State.takeAnswer_lineRequests : (s.takeAnswer).lineRequests = s.lineRequests := rfl
@[simp] theorem State.takeAnswer_answers : (s.takeAnswer).answers = s.answers.tail := rfl
@[simp] theorem State.takeAnswer_host : (s.takeAnswer).host = s.host := rfl
@[simp] theorem State.takeAnswer_replies : (s.takeAnswer).replies = s.replies := rfl

@[simp] theorem State.consume_regs (b : Byte) (r : List Byte) : (s.consume b r).regs = s.regs := rfl
@[simp] theorem State.consume_ip (b : Byte) (r : List Byte) : (s.consume b r).ip = s.ip := rfl
@[simp] theorem State.consume_stack (b : Byte) (r : List Byte) : (s.consume b r).stack = s.stack := rfl
@[simp] theorem State.consume_stackCapacity (b : Byte) (r : List Byte) : (s.consume b r).stackCapacity = s.stackCapacity := rfl
@[simp] theorem State.consume_mem (b : Byte) (r : List Byte) : (s.consume b r).mem = s.mem := rfl
@[simp] theorem State.consume_engine (b : Byte) (r : List Byte) : (s.consume b r).engine = s.engine := rfl
@[simp] theorem State.consume_waitInput (b : Byte) (r : List Byte) : (s.consume b r).waitInput = false := rfl
@[simp] theorem State.consume_fault (b : Byte) (r : List Byte) : (s.consume b r).fault = s.fault := rfl
@[simp] theorem State.consume_ib (b : Byte) (r : List Byte) : (s.consume b r).ib = if b = 10 then [] else r := rfl
@[simp] theorem State.consume_bp (b : Byte) (r : List Byte) : (s.consume b r).bp = s.bp := rfl
@[simp] theorem State.consume_skipBp (b : Byte) (r : List Byte) : (s.consume b r).skipBp = s.skipBp := rfl
@[simp] theorem State.consume_output (b : Byte) (r : List Byte) : (s.consume b r).output = s.output := rfl
@[simp] theorem State.consume_pausePending (b : Byte) (r : List Byte) : (s.consume b r).pausePending = s.pausePending := rfl
@[simp] theorem State.consume_singleStep (b : Byte) (r : List Byte) : (s.consume b r).singleStep = s.singleStep := rfl
@[simp] theorem State.consume_lineRequests (b : Byte) (r : List Byte) : (s.consume b r).lineRequests = s.lineRequests := rfl
@[simp] theorem State.consume_answers (b : Byte) (r : List Byte) : (s.consume b r).answers = s.answers := rfl
@[simp] theorem State.consume_host (b : Byte) (r : List Byte) : (s.consume b r).host = s.host := rfl
@[simp] theorem State.consume_replies (b : Byte) (r : List Byte) : (s.consume b r).replies = s.replies := rfl

@[simp] theorem State.setEngine_regs (e : EngineState) : (s.setEngine e).regs = s.regs := rfl
@[simp] theorem State.setEngine_ip (e : EngineState) : (s.setEngine e).ip = s.ip := rfl
@[simp] theorem State.setEngine_stack (e : EngineState) : (s.setEngine e).stack = s.stack := rfl
@[simp] theorem State.setEngine_stackCapacity (e : EngineState) : (s.setEngine e).stackCapacity = s.stackCapacity := rfl
@[simp] theorem State.setEngine_mem (e : EngineState) : (s.setEngine e).mem = s.mem := rfl
@[simp] theorem State.setEngine_engine (e : EngineState) : (s.setEngine e).engine = e := rfl
@[simp] theorem State.setEngine_waitInput (e : EngineState) : (s.setEngine e).waitInput = s.waitInput := rfl
@[simp] theorem State.setEngine_fault (e : EngineState) : (s.setEngine e).fault = s.fault := rfl
@[simp] theorem State.setEngine_ib (e : EngineState) : (s.setEngine e).ib = s.ib := rfl
@[simp] theorem State.setEngine_bp (e : EngineState) : (s.setEngine e).bp = s.bp := rfl
@[simp] theorem State.setEngine_skipBp (e : EngineState) : (s.setEngine e).skipBp = s.skipBp := rfl
@[simp] theorem State.setEngine_output (e : EngineState) : (s.setEngine e).output = s.output := rfl
@[simp] theorem State.setEngine_pausePending (e : EngineState) : (s.setEngine e).pausePending = s.pausePending := rfl
@[simp] theorem State.setEngine_singleStep (e : EngineState) : (s.setEngine e).singleStep = s.singleStep := rfl
@[simp] theorem State.setEngine_lineRequests (e : EngineState) : (s.setEngine e).lineRequests = s.lineRequests := rfl
@[simp] theorem State.setEngine_answers (e : EngineState) : (s.setEngine e).answers = s.answers := rfl
@[simp] theorem State.setEngine_host (e : EngineState) : (s.setEngine e).host = s.host := rfl
@[simp] theorem State.setEngine_replies (e : EngineState) : (s.setEngine e).replies = s.replies := rfl

@[simp] theorem State.enterFault_regs (ws : List Word) (t : Trap) : (s.enterFault ws t).regs = s.regs := rfl
@[simp] theorem State.enterFault_ip (ws : List Word) (t : Trap) : (s.enterFault ws t).ip = s.ip := rfl
@[simp] theorem State.enterFault_stack (ws : List Word) (t : Trap) : (s.enterFault ws t).stack = s.stack := rfl
@[simp] theorem State.enterFault_stackCapacity (ws : List Word) (t : Trap) : (s.enterFault ws t).stackCapacity = s.stackCapacity := rfl
@[simp] theorem State.enterFault_mem (ws : List Word) (t : Trap) : (s.enterFault ws t).mem = s.mem := rfl
@[simp] theorem State.enterFault_engine (ws : List Word) (t : Trap) : (s.enterFault ws t).engine = .faulted := rfl
@[simp] theorem State.enterFault_waitInput (ws : List Word) (t : Trap) : (s.enterFault ws t).waitInput = false := rfl
@[simp] theorem State.enterFault_fault (ws : List Word) (t : Trap) : (s.enterFault ws t).fault = faultRecord s.ip ws t := rfl
@[simp] theorem State.enterFault_ib (ws : List Word) (t : Trap) : (s.enterFault ws t).ib = s.ib := rfl
@[simp] theorem State.enterFault_bp (ws : List Word) (t : Trap) : (s.enterFault ws t).bp = s.bp := rfl
@[simp] theorem State.enterFault_skipBp (ws : List Word) (t : Trap) : (s.enterFault ws t).skipBp = s.skipBp := rfl
@[simp] theorem State.enterFault_output (ws : List Word) (t : Trap) : (s.enterFault ws t).output = s.output := rfl
@[simp] theorem State.enterFault_pausePending (ws : List Word) (t : Trap) : (s.enterFault ws t).pausePending = s.pausePending := rfl
@[simp] theorem State.enterFault_singleStep (ws : List Word) (t : Trap) : (s.enterFault ws t).singleStep = s.singleStep := rfl
@[simp] theorem State.enterFault_lineRequests (ws : List Word) (t : Trap) : (s.enterFault ws t).lineRequests = s.lineRequests := rfl
@[simp] theorem State.enterFault_answers (ws : List Word) (t : Trap) : (s.enterFault ws t).answers = s.answers := rfl
@[simp] theorem State.enterFault_host (ws : List Word) (t : Trap) : (s.enterFault ws t).host = s.host := rfl
@[simp] theorem State.enterFault_replies (ws : List Word) (t : Trap) : (s.enterFault ws t).replies = s.replies := rfl

@[simp] theorem State.raise_regs (i : Instr) (t : Trap) : (s.raise i t).regs = s.regs := rfl
@[simp] theorem State.raise_ip (i : Instr) (t : Trap) : (s.raise i t).ip = s.ip := rfl
@[simp] theorem State.raise_stack (i : Instr) (t : Trap) : (s.raise i t).stack = s.stack := rfl
@[simp] theorem State.raise_stackCapacity (i : Instr) (t : Trap) : (s.raise i t).stackCapacity = s.stackCapacity := rfl
@[simp] theorem State.raise_mem (i : Instr) (t : Trap) : (s.raise i t).mem = s.mem := rfl
@[simp] theorem State.raise_engine (i : Instr) (t : Trap) : (s.raise i t).engine = .faulted := rfl
@[simp] theorem State.raise_waitInput (i : Instr) (t : Trap) : (s.raise i t).waitInput = false := rfl
@[simp] theorem State.raise_fault (i : Instr) (t : Trap) : (s.raise i t).fault = faultRecord s.ip (t.fetched i) t := rfl
@[simp] theorem State.raise_ib (i : Instr) (t : Trap) : (s.raise i t).ib = s.ib := rfl
@[simp] theorem State.raise_bp (i : Instr) (t : Trap) : (s.raise i t).bp = s.bp := rfl
@[simp] theorem State.raise_skipBp (i : Instr) (t : Trap) : (s.raise i t).skipBp = s.skipBp := rfl
@[simp] theorem State.raise_output (i : Instr) (t : Trap) : (s.raise i t).output = s.output := rfl
@[simp] theorem State.raise_pausePending (i : Instr) (t : Trap) : (s.raise i t).pausePending = s.pausePending := rfl
@[simp] theorem State.raise_singleStep (i : Instr) (t : Trap) : (s.raise i t).singleStep = s.singleStep := rfl
@[simp] theorem State.raise_lineRequests (i : Instr) (t : Trap) : (s.raise i t).lineRequests = s.lineRequests := rfl
@[simp] theorem State.raise_answers (i : Instr) (t : Trap) : (s.raise i t).answers = s.answers := rfl
@[simp] theorem State.raise_host (i : Instr) (t : Trap) : (s.raise i t).host = s.host := rfl
@[simp] theorem State.raise_replies (i : Instr) (t : Trap) : (s.raise i t).replies = s.replies := rfl

@[simp] theorem State.resume_regs : (s.resume).regs = s.regs := rfl
@[simp] theorem State.resume_ip : (s.resume).ip = s.ip := rfl
@[simp] theorem State.resume_stack : (s.resume).stack = s.stack := rfl
@[simp] theorem State.resume_stackCapacity : (s.resume).stackCapacity = s.stackCapacity := rfl
@[simp] theorem State.resume_mem : (s.resume).mem = s.mem := rfl
@[simp] theorem State.resume_engine : (s.resume).engine = .running := rfl
@[simp] theorem State.resume_waitInput : (s.resume).waitInput = s.waitInput := rfl
@[simp] theorem State.resume_fault : (s.resume).fault = s.fault := rfl
@[simp] theorem State.resume_ib : (s.resume).ib = s.ib := rfl
@[simp] theorem State.resume_bp : (s.resume).bp = s.bp := rfl
@[simp] theorem State.resume_skipBp : (s.resume).skipBp = true := rfl
@[simp] theorem State.resume_output : (s.resume).output = s.output := rfl
@[simp] theorem State.resume_pausePending : (s.resume).pausePending = s.pausePending := rfl
@[simp] theorem State.resume_singleStep : (s.resume).singleStep = s.singleStep := rfl
@[simp] theorem State.resume_lineRequests : (s.resume).lineRequests = s.lineRequests := rfl
@[simp] theorem State.resume_answers : (s.resume).answers = s.answers := rfl
@[simp] theorem State.resume_host : (s.resume).host = s.host := rfl
@[simp] theorem State.resume_replies : (s.resume).replies = s.replies := rfl

@[simp] theorem State.enterPaused_regs : (s.enterPaused).regs = s.regs := rfl
@[simp] theorem State.enterPaused_ip : (s.enterPaused).ip = s.ip := rfl
@[simp] theorem State.enterPaused_stack : (s.enterPaused).stack = s.stack := rfl
@[simp] theorem State.enterPaused_stackCapacity : (s.enterPaused).stackCapacity = s.stackCapacity := rfl
@[simp] theorem State.enterPaused_mem : (s.enterPaused).mem = s.mem := rfl
@[simp] theorem State.enterPaused_engine : (s.enterPaused).engine = .paused := rfl
@[simp] theorem State.enterPaused_waitInput : (s.enterPaused).waitInput = s.waitInput := rfl
@[simp] theorem State.enterPaused_fault : (s.enterPaused).fault = s.fault := rfl
@[simp] theorem State.enterPaused_ib : (s.enterPaused).ib = s.ib := rfl
@[simp] theorem State.enterPaused_bp : (s.enterPaused).bp = s.bp := rfl
@[simp] theorem State.enterPaused_skipBp : (s.enterPaused).skipBp = s.skipBp := rfl
@[simp] theorem State.enterPaused_output : (s.enterPaused).output = s.output := rfl
@[simp] theorem State.enterPaused_pausePending : (s.enterPaused).pausePending = false := rfl
@[simp] theorem State.enterPaused_singleStep : (s.enterPaused).singleStep = s.singleStep := rfl
@[simp] theorem State.enterPaused_lineRequests : (s.enterPaused).lineRequests = s.lineRequests := rfl
@[simp] theorem State.enterPaused_answers : (s.enterPaused).answers = s.answers := rfl
@[simp] theorem State.enterPaused_host : (s.enterPaused).host = s.host := rfl
@[simp] theorem State.enterPaused_replies : (s.enterPaused).replies = s.replies := rfl

@[simp] theorem State.reply_regs (r : HostReply) : (s.reply r).regs = s.regs := rfl
@[simp] theorem State.reply_ip (r : HostReply) : (s.reply r).ip = s.ip := rfl
@[simp] theorem State.reply_stack (r : HostReply) : (s.reply r).stack = s.stack := rfl
@[simp] theorem State.reply_stackCapacity (r : HostReply) : (s.reply r).stackCapacity = s.stackCapacity := rfl
@[simp] theorem State.reply_mem (r : HostReply) : (s.reply r).mem = s.mem := rfl
@[simp] theorem State.reply_engine (r : HostReply) : (s.reply r).engine = s.engine := rfl
@[simp] theorem State.reply_waitInput (r : HostReply) : (s.reply r).waitInput = s.waitInput := rfl
@[simp] theorem State.reply_fault (r : HostReply) : (s.reply r).fault = s.fault := rfl
@[simp] theorem State.reply_ib (r : HostReply) : (s.reply r).ib = s.ib := rfl
@[simp] theorem State.reply_bp (r : HostReply) : (s.reply r).bp = s.bp := rfl
@[simp] theorem State.reply_skipBp (r : HostReply) : (s.reply r).skipBp = s.skipBp := rfl
@[simp] theorem State.reply_output (r : HostReply) : (s.reply r).output = s.output := rfl
@[simp] theorem State.reply_pausePending (r : HostReply) : (s.reply r).pausePending = s.pausePending := rfl
@[simp] theorem State.reply_singleStep (r : HostReply) : (s.reply r).singleStep = s.singleStep := rfl
@[simp] theorem State.reply_lineRequests (r : HostReply) : (s.reply r).lineRequests = s.lineRequests := rfl
@[simp] theorem State.reply_answers (r : HostReply) : (s.reply r).answers = s.answers := rfl
@[simp] theorem State.reply_host (r : HostReply) : (s.reply r).host = s.host := rfl
@[simp] theorem State.reply_replies (r : HostReply) : (s.reply r).replies = s.replies ++ [r] := rfl

end

/-! ## The line request, which does nothing while one is outstanding -/

@[simp] theorem State.requestLine_waitInput (s : State) : s.requestLine.waitInput = true := by
  unfold State.requestLine; split <;> simp_all

@[simp] theorem State.requestLine_lineRequests (s : State) :
    s.requestLine.lineRequests = if s.waitInput then s.lineRequests else s.lineRequests + 1 := by
  unfold State.requestLine; split <;> rfl

@[simp] theorem State.requestLine_regs (s : State) : s.requestLine.regs = s.regs := by unfold State.requestLine; split <;> rfl
@[simp] theorem State.requestLine_ip (s : State) : s.requestLine.ip = s.ip := by unfold State.requestLine; split <;> rfl
@[simp] theorem State.requestLine_stack (s : State) : s.requestLine.stack = s.stack := by unfold State.requestLine; split <;> rfl
@[simp] theorem State.requestLine_stackCapacity (s : State) : s.requestLine.stackCapacity = s.stackCapacity := by unfold State.requestLine; split <;> rfl
@[simp] theorem State.requestLine_mem (s : State) : s.requestLine.mem = s.mem := by unfold State.requestLine; split <;> rfl
@[simp] theorem State.requestLine_engine (s : State) : s.requestLine.engine = s.engine := by unfold State.requestLine; split <;> rfl
@[simp] theorem State.requestLine_fault (s : State) : s.requestLine.fault = s.fault := by unfold State.requestLine; split <;> rfl
@[simp] theorem State.requestLine_ib (s : State) : s.requestLine.ib = s.ib := by unfold State.requestLine; split <;> rfl
@[simp] theorem State.requestLine_bp (s : State) : s.requestLine.bp = s.bp := by unfold State.requestLine; split <;> rfl
@[simp] theorem State.requestLine_skipBp (s : State) : s.requestLine.skipBp = s.skipBp := by unfold State.requestLine; split <;> rfl
@[simp] theorem State.requestLine_output (s : State) : s.requestLine.output = s.output := by unfold State.requestLine; split <;> rfl
@[simp] theorem State.requestLine_pausePending (s : State) : s.requestLine.pausePending = s.pausePending := by unfold State.requestLine; split <;> rfl
@[simp] theorem State.requestLine_singleStep (s : State) : s.requestLine.singleStep = s.singleStep := by unfold State.requestLine; split <;> rfl
@[simp] theorem State.requestLine_answers (s : State) : s.requestLine.answers = s.answers := by unfold State.requestLine; split <;> rfl
@[simp] theorem State.requestLine_host (s : State) : s.requestLine.host = s.host := by unfold State.requestLine; split <;> rfl
@[simp] theorem State.requestLine_replies (s : State) : s.requestLine.replies = s.replies := by unfold State.requestLine; split <;> rfl

/-! ## Registers through their accessor -/

@[simp] theorem State.getReg_setReg_same (s : State) (k : Fin 8) (v : Word) : (s.setReg k v).getReg k = v := by
  simp [State.getReg]

theorem State.getReg_setReg_ne (s : State) {k j : Fin 8} (v : Word) (h : k ≠ j) :
    (s.setReg k v).getReg j = s.getReg j := by
  simp only [State.getReg, State.setReg_regs]
  exact Vector.getElem_set_ne _ _ (fun e => h (Fin.ext e))

/-- Two states with the same registers read the same from each. -/
theorem State.getReg_congr {s t : State} (h : t.regs = s.regs) (k : Fin 8) : t.getReg k = s.getReg k := by
  simp only [State.getReg, h]

end Sys2Proof.Machine
end

