-- ==== Sys2Proof/Laws/Memory.lean ====
section
/-!
SUPPORT. The laws of the word store: a read after a write, other cells, and the canonical form every memory operation keeps.
-/
namespace Sys2Proof.Machine

open Sys2Proof

@[simp] theorem Memory.read_write_same (m : Memory) (a : Nat) (v : Word) : (Memory.write m a v).read a = some v := by
  induction m with
  | nil => simp [Memory.write, Memory.read]
  | cons c m ih =>
    obtain ⟨b, w⟩ := c
    simp only [Memory.write]
    split
    · simp [Memory.read]
    · split
      · simp [Memory.read]
      · simp [Memory.read, *]

theorem Memory.read_write_ne (m : Memory) {a b : Nat} (v : Word) (h : b ≠ a) : (Memory.write m a v).read b = m.read b := by
  induction m with
  | nil => simp [Memory.write, Memory.read, h]
  | cons c m ih =>
    obtain ⟨d, w⟩ := c
    simp only [Memory.write]
    split
    · simp [Memory.read, h]
    · split
      · rename_i e; simp [Memory.read, h, ← e]
      · simp [Memory.read, ih]

theorem Memory.write_risingFrom (m : Memory) {lo a : Nat} (v : Word) (hm : Memory.risingFrom lo m = true) (hlo : lo ≤ a)
    (ha : a ≤ 65535) : Memory.risingFrom lo (m.write a v) = true := by
  induction m generalizing lo with
  | nil => simp [Memory.write, Memory.risingFrom, hlo, ha]
  | cons c m ih =>
    obtain ⟨b, w⟩ := c
    simp only [Memory.risingFrom, Bool.and_eq_true, decide_eq_true_eq] at hm
    simp only [Memory.write]
    split
    · simp only [Memory.risingFrom, Bool.and_eq_true, decide_eq_true_eq]
      exact ⟨⟨hlo, ha⟩, ⟨by omega, hm.1.2⟩, hm.2⟩
    · split
      · rename_i e
        simp only [Memory.risingFrom, Bool.and_eq_true, decide_eq_true_eq]
        exact ⟨⟨hlo, ha⟩, by rw [e]; exact hm.2⟩
      · simp only [Memory.risingFrom, Bool.and_eq_true, decide_eq_true_eq]
        exact ⟨hm.1, ih hm.2 (by omega)⟩

/-- A write inside the address space keeps the canonical form. -/
theorem Memory.write_wf {m : Memory} (hm : m.wf = true) {a : Nat} (ha : a ≤ 65535) (v : Word) : (m.write a v).wf = true :=
  Memory.write_risingFrom m v hm (Nat.zero_le a) ha

theorem State.memWrite_wf {s : State} (h : s.mem.wf = true) (a v : Word) : (s.memWrite a v).mem.wf = true :=
  Memory.write_wf h (by omega) v

/-- The memory of the reset state has the canonical form. -/
theorem State.reset_mem_wf : State.reset.mem.wf = true := rfl

/-- Reading depends on the cells and the registers alone. -/
theorem State.memRead_congr {s t : State} (hm : t.mem = s.mem) (hr : t.regs = s.regs) (a : Nat) :
    t.memRead a = s.memRead a := by
  simp only [State.memRead, State.getReg, hm, hr]

/-- A set cell is read as it is, at an alias address too. -/
theorem State.memRead_of_read {s : State} {a : Nat} {v : Word} (ha : a ≤ 65535) (h : s.mem.read a = some v) :
    s.memRead a = some v := by
  simp [State.memRead, ha, h]

end Sys2Proof.Machine
end

