-- ==== Sys2Proof/Laws/Exec.lean ====
section
/-!
SUPPORT. What the shared operations of the meanings can do, said once each, and what `exec` can answer.
-/
namespace Sys2Proof.Machine

open Sys2Proof

/-! ## Commit and fault entry -/

/-- An instruction always answers a next state: its effects, or the fault it raised (40_engine.md R135, R137). -/
theorem State.commit_next {s t : State} {i : Instr} {r : Except Trap State} (h : s.commit i r = .next t) :
    r = .ok t ∨ ∃ tr, r = .error tr ∧ t = s.raise i tr := by
  cases r with
  | ok u => left; simpa [State.commit] using h
  | error tr => right; exact ⟨tr, rfl, by simpa [State.commit, eq_comm] using h⟩

@[simp] theorem State.commit_ok (s t : State) (i : Instr) : s.commit i (.ok t) = .next t := rfl

@[simp] theorem State.commit_error (s : State) (i : Instr) (tr : Trap) : s.commit i (.error tr) = .next (s.raise i tr) := rfl

/-! ## Operands and the successor -/

theorem State.operandValue_readable {s : State} {o : Operand} : (s.operandValue o).isSome = o.readable := by
  cases o with
  | literal v => simp only [State.operandValue, Operand.readable]; split <;> simp_all
  | register k => rfl
  | invalid w => rfl

theorem State.resolve_of_value {s : State} {o : Operand} {v : Word} (k : Nat) (h : s.operandValue o = some v) :
    s.resolve k o = .ok v := by
  simp [State.resolve, h]

theorem State.resolve_ok {s : State} {o : Operand} {v : Word} {k : Nat} (h : s.resolve k o = .ok v) :
    s.operandValue o = some v := by
  unfold State.resolve at h
  split at h <;> simp_all

theorem State.resolve_error {s : State} {o : Operand} {k : Nat} {tr : Trap} (h : s.resolve k o = .error tr) :
    tr = .invalidOperand k ∧ o.readable = false := by
  unfold State.resolve at h
  split at h
  · cases h
  · rename_i hv
    have : o.readable = false := by rw [← State.operandValue_readable (s := s), hv]; rfl
    simp_all

@[simp] theorem dstReg_register (k : Nat) (d : Fin 8) : dstReg k (.register d) = .ok d := rfl

theorem dstReg_ok {k : Nat} {o : Operand} {d : Fin 8} (h : dstReg k o = .ok d) : o = .register d := by
  cases o <;> simp_all [dstReg]

theorem dstReg_error {k : Nat} {o : Operand} {tr : Trap} (h : dstReg k o = .error tr) :
    tr = .invalidOperand k ∧ o.writable = false := by
  cases o <;> simp_all [dstReg, Operand.writable]

theorem State.successor_of_le {s : State} {n : Nat} (h : s.ip.toNat + 1 + n ≤ 65535) :
    s.successor n = .ok (BitVec.ofNat 16 (s.ip.toNat + 1 + n)) := by
  simp [State.successor, h]

theorem State.successor_of_gt {s : State} {n : Nat} (h : 65536 ≤ s.ip.toNat + 1 + n) :
    s.successor n = .error (.invalidAddress 65536) := by
  simp only [State.successor]; rw [if_neg (by omega)]

theorem State.successor_ok {s : State} {n : Nat} {v : Word} (h : s.successor n = .ok v) :
    s.ip.toNat + 1 + n ≤ 65535 ∧ v = BitVec.ofNat 16 (s.ip.toNat + 1 + n) := by
  unfold State.successor at h
  split at h
  · exact ⟨by assumption, by simpa [eq_comm] using h⟩
  · cases h

theorem State.successor_error {s : State} {n : Nat} {tr : Trap} (h : s.successor n = .error tr) :
    tr = .invalidAddress 65536 := by
  unfold State.successor at h
  split at h <;> simp_all

/-! ## The two shapes that write a register -/

theorem State.writeUnary_of {s : State} {b : Operand} {d : Fin 8} {vb : Word} {f : Word → Except Trap Word}
    (hb : s.operandValue b = some vb) (hs : s.ip.toNat + 3 ≤ 65535) :
    s.writeUnary (.register d) b f = (f vb).map fun v => (s.setReg d v).setIp (BitVec.ofNat 16 (s.ip.toNat + 3)) := by
  simp only [State.writeUnary, dstReg_register, State.resolve_of_value 1 hb,
    State.successor_of_le (n := 2) (by omega : s.ip.toNat + 1 + 2 ≤ 65535), bind, Except.bind]
  cases f vb <;> rfl

theorem State.writeBinary_of {s : State} {b c : Operand} {d : Fin 8} {vb vc : Word} {f : Word → Word → Except Trap Word}
    (hb : s.operandValue b = some vb) (hc : s.operandValue c = some vc) (hs : s.ip.toNat + 4 ≤ 65535) :
    s.writeBinary (.register d) b c f =
      (f vb vc).map fun v => (s.setReg d v).setIp (BitVec.ofNat 16 (s.ip.toNat + 4)) := by
  simp only [State.writeBinary, dstReg_register, State.resolve_of_value 1 hb, State.resolve_of_value 2 hc,
    State.successor_of_le (n := 3) (by omega : s.ip.toNat + 1 + 3 ≤ 65535), bind, Except.bind]
  cases f vb vc <;> rfl

/-- What `writeUnary` does when it raises nothing. -/
theorem State.writeUnary_ok {s t : State} {a b : Operand} {f : Word → Except Trap Word}
    (h : s.writeUnary a b f = .ok t) :
    ∃ d vb v, a = .register d ∧ s.operandValue b = some vb ∧ f vb = .ok v ∧ s.ip.toNat + 3 ≤ 65535 ∧
      t = (s.setReg d v).setIp (BitVec.ofNat 16 (s.ip.toNat + 3)) := by
  simp only [State.writeUnary, bind, Except.bind] at h
  split at h
  · cases h
  · rename_i d hd
    split at h
    · cases h
    · rename_i vb hvb
      split at h
      · cases h
      · rename_i succ hs
        split at h
        · cases h
        · rename_i v hv
          obtain ⟨hle, rfl⟩ := State.successor_ok hs
          cases h
          exact ⟨d, vb, v, dstReg_ok hd, State.resolve_ok hvb, hv, hle, rfl⟩

/-- What `writeBinary` does when it raises nothing. -/
theorem State.writeBinary_ok {s t : State} {a b c : Operand} {f : Word → Word → Except Trap Word}
    (h : s.writeBinary a b c f = .ok t) :
    ∃ d vb vc v, a = .register d ∧ s.operandValue b = some vb ∧ s.operandValue c = some vc ∧ f vb vc = .ok v ∧
      s.ip.toNat + 4 ≤ 65535 ∧ t = (s.setReg d v).setIp (BitVec.ofNat 16 (s.ip.toNat + 4)) := by
  simp only [State.writeBinary, bind, Except.bind] at h
  split at h
  · cases h
  · rename_i d hd
    split at h
    · cases h
    · rename_i vb hvb
      split at h
      · cases h
      · rename_i vc hvc
        split at h
        · cases h
        · rename_i succ hs
          split at h
          · cases h
          · rename_i v hv
            obtain ⟨hle, rfl⟩ := State.successor_ok hs
            cases h
            exact ⟨d, vb, vc, v, dstReg_ok hd, State.resolve_ok hvb, State.resolve_ok hvc, hv, hle, rfl⟩

/-! ## Stack, control transfer, memory and output -/

theorem State.pushChecked_ok {s t : State} {v : Word} (h : s.pushChecked v = .ok t) :
    s.stack.length < s.stackCapacity ∧ t = s.pushWord v := by
  unfold State.pushChecked at h
  split at h
  · cases h
  · cases h; exact ⟨by omega, rfl⟩

theorem State.pushEffect_ok {s t : State} {a : Operand} (h : s.pushEffect a = .ok t) :
    ∃ va, s.operandValue a = some va ∧ s.ip.toNat + 2 ≤ 65535 ∧ s.stack.length < s.stackCapacity ∧
      t = (s.pushWord va).setIp (BitVec.ofNat 16 (s.ip.toNat + 2)) := by
  simp only [State.pushEffect, bind, Except.bind] at h
  split at h
  · cases h
  · rename_i va hva
    split at h
    · cases h
    · rename_i succ hs
      split at h
      · cases h
      · rename_i u hu
        obtain ⟨hle, rfl⟩ := State.successor_ok hs
        obtain ⟨hlt, rfl⟩ := State.pushChecked_ok hu
        cases h
        exact ⟨va, State.resolve_ok hva, hle, hlt, rfl⟩

theorem State.popEffect_ok {s t : State} {a : Operand} (h : s.popEffect a = .ok t) :
    ∃ d v rest, a = .register d ∧ s.stack = v :: rest ∧ s.ip.toNat + 2 ≤ 65535 ∧
      t = (s.dropTop.setReg d v).setIp (BitVec.ofNat 16 (s.ip.toNat + 2)) := by
  simp only [State.popEffect, bind, Except.bind] at h
  split at h
  · cases h
  · rename_i d hd
    split at h
    · cases h
    · rename_i succ hs
      obtain ⟨hle, rfl⟩ := State.successor_ok hs
      split at h
      · cases h
      · rename_i v rest hst
        cases h
        exact ⟨d, v, rest, dstReg_ok hd, hst, hle, rfl⟩

theorem State.branch_ok {s t : State} {a b : Operand} {p : Word → Bool} (h : s.branch a b p = .ok t) :
    ∃ va vb, s.operandValue a = some va ∧ s.operandValue b = some vb ∧
      (p va = true ∧ t = s.setIp vb ∨
        p va = false ∧ s.ip.toNat + 3 ≤ 65535 ∧ t = s.setIp (BitVec.ofNat 16 (s.ip.toNat + 3))) := by
  simp only [State.branch, bind, Except.bind] at h
  split at h
  · cases h
  · rename_i va hva
    split at h
    · cases h
    · rename_i vb hvb
      refine ⟨va, vb, State.resolve_ok hva, State.resolve_ok hvb, ?_⟩
      split at h
      · rename_i hp; cases h; exact .inl ⟨hp, rfl⟩
      · rename_i hp
        split at h
        · cases h
        · rename_i succ hs
          obtain ⟨hle, rfl⟩ := State.successor_ok hs
          cases h
          exact .inr ⟨by simpa using hp, hle, rfl⟩

theorem State.advance_ok {s t : State} (h : s.advance = .ok t) :
    s.ip.toNat + 1 ≤ 65535 ∧ t = s.setIp (BitVec.ofNat 16 (s.ip.toNat + 1)) := by
  simp only [State.advance, bind, Except.bind] at h
  split at h
  · cases h
  · rename_i succ hs
    obtain ⟨hle, rfl⟩ := State.successor_ok hs
    cases h
    exact ⟨hle, rfl⟩

theorem State.haltEffect_ok {s t : State} (h : s.haltEffect = .ok t) :
    s.ip.toNat + 1 ≤ 65535 ∧ t = (s.setIp (BitVec.ofNat 16 (s.ip.toNat + 1))).setEngine .halted := by
  simp only [State.haltEffect, bind, Except.bind] at h
  split at h
  · cases h
  · rename_i u hu
    obtain ⟨hle, rfl⟩ := State.advance_ok hu
    cases h
    exact ⟨hle, rfl⟩

theorem State.callEffect_ok {s t : State} {a : Operand} (h : s.callEffect a = .ok t) :
    ∃ va, s.operandValue a = some va ∧ s.ip.toNat + 2 ≤ 65535 ∧ s.stack.length < s.stackCapacity ∧
      t = (s.pushWord (BitVec.ofNat 16 (s.ip.toNat + 2))).setIp va := by
  simp only [State.callEffect, bind, Except.bind] at h
  split at h
  · cases h
  · rename_i va hva
    split at h
    · cases h
    · rename_i succ hs
      split at h
      · cases h
      · rename_i u hu
        obtain ⟨hle, rfl⟩ := State.successor_ok hs
        obtain ⟨hlt, rfl⟩ := State.pushChecked_ok hu
        cases h
        exact ⟨va, State.resolve_ok hva, hle, hlt, rfl⟩

theorem State.retEffect_ok {s t : State} (h : s.retEffect = .ok t) :
    (s.stack = [] ∧ s.ip.toNat + 1 ≤ 65535 ∧
        t = (s.setIp (BitVec.ofNat 16 (s.ip.toNat + 1))).setEngine .halted) ∨
      ∃ v rest, s.stack = v :: rest ∧ t = s.dropTop.setIp v := by
  unfold State.retEffect at h
  split at h
  · rename_i hst
    obtain ⟨hle, rfl⟩ := State.haltEffect_ok h
    exact .inl ⟨hst, hle, rfl⟩
  · rename_i v rest hst
    cases h
    exact .inr ⟨v, rest, hst, rfl⟩

theorem State.storeEffect_ok {s t : State} {a b : Operand} (h : s.storeEffect a b = .ok t) :
    ∃ va vb, s.operandValue a = some va ∧ s.operandValue b = some vb ∧ s.ip.toNat + 3 ≤ 65535 ∧
      t = (s.memWrite va vb).setIp (BitVec.ofNat 16 (s.ip.toNat + 3)) := by
  simp only [State.storeEffect, bind, Except.bind] at h
  split at h
  · cases h
  · rename_i va hva
    split at h
    · cases h
    · rename_i vb hvb
      split at h
      · cases h
      · rename_i succ hs
        obtain ⟨hle, rfl⟩ := State.successor_ok hs
        cases h
        exact ⟨va, vb, State.resolve_ok hva, State.resolve_ok hvb, hle, rfl⟩

theorem State.outEffect_ok {s t : State} {a : Operand} (h : s.outEffect a = .ok t) :
    ∃ va, s.operandValue a = some va ∧ s.ip.toNat + 2 ≤ 65535 ∧
      t = (s.emit (lowByte va)).setIp (BitVec.ofNat 16 (s.ip.toNat + 2)) := by
  simp only [State.outEffect, bind, Except.bind] at h
  split at h
  · cases h
  · rename_i va hva
    split at h
    · cases h
    · rename_i succ hs
      obtain ⟨hle, rfl⟩ := State.successor_ok hs
      cases h
      exact ⟨va, State.resolve_ok hva, hle, rfl⟩

/-! ## In -/

theorem State.inputTarget_ok {s : State} {a : Operand} {p : Fin 8 × Word} (h : s.inputTarget a = .ok p) :
    a = .register p.1 ∧ s.ip.toNat + 2 ≤ 65535 ∧ p.2 = BitVec.ofNat 16 (s.ip.toNat + 2) := by
  simp only [State.inputTarget, bind, Except.bind] at h
  split at h
  · cases h
  · rename_i d hd
    split at h
    · cases h
    · rename_i succ hs
      obtain ⟨hle, rfl⟩ := State.successor_ok hs
      cases h
      exact ⟨dstReg_ok hd, hle, rfl⟩

theorem State.inputTarget_of {s : State} {d : Fin 8} (hs : s.ip.toNat + 2 ≤ 65535) :
    s.inputTarget (.register d) = .ok (d, BitVec.ofNat 16 (s.ip.toNat + 2)) := by
  simp [State.inputTarget, bind, Except.bind, State.successor_of_le (n := 1) (by omega : s.ip.toNat + 1 + 1 ≤ 65535)]

/-- What a line request comes to: the wait, the first byte of a line, or InputEOF. -/
theorem State.receive_cases (s : State) (i : Instr) (d : Fin 8) (succ : Word) :
    (s.answers = [] ∧ s.receive i d succ = s) ∨
      (∃ b rest more, s.answers = .line (b :: rest) :: more ∧ s.receive i d succ = s.takeAnswer.deliver d succ b rest) ∨
      s.receive i d succ = s.takeAnswer.raise i .inputEOF := by
  unfold State.receive
  split
  · exact .inl ⟨by assumption, rfl⟩
  · exact .inr (.inl ⟨_, _, _, by assumption, rfl⟩)
  · exact .inr (.inr rfl)
  · exact .inr (.inr rfl)

/-- What `In` can do: raise a fault of its own, deliver from the buffer, wait, or take an answer (46_io.md R270 to R275). -/
theorem execIn_cases {s t : State} {a : Operand} (h : execIn a s = .next t) :
    (∃ tr, s.inputTarget a = .error tr ∧ t = s.raise (.input a) tr) ∨
      ∃ d, a = .register d ∧ s.ip.toNat + 2 ≤ 65535 ∧
        ((∃ b rest, s.ib = b :: rest ∧ t = s.deliver d (BitVec.ofNat 16 (s.ip.toNat + 2)) b rest) ∨
          s.ib = [] ∧ t = s.requestLine.receive (.input a) d (BitVec.ofNat 16 (s.ip.toNat + 2))) := by
  unfold execIn at h
  split at h
  · rename_i tr htr
    cases h
    exact .inl ⟨tr, htr, rfl⟩
  · rename_i d succ hp
    obtain ⟨ha, hle, hsucc⟩ := State.inputTarget_ok hp
    simp only at ha hsucc
    subst hsucc
    refine .inr ⟨d, ha, hle, ?_⟩
    split at h
    · rename_i b rest hib
      cases h
      exact .inl ⟨b, rest, hib, rfl⟩
    · rename_i hib
      cases h
      exact .inr ⟨hib, rfl⟩

/-! ## exec -/

/-- Every instruction answers a next state: the meanings stop on no path. -/
theorem exec_next (i : Instr) (s : State) : ∃ t, exec i s = .next t := by
  have commit : ∀ r, ∃ t, s.commit i r = .next t := fun r => by cases r <;> exact ⟨_, rfl⟩
  cases i
  case input a =>
    simp only [exec, execIn]
    split
    · exact ⟨_, rfl⟩
    · split <;> exact ⟨_, rfl⟩
  all_goals exact commit _

end Sys2Proof.Machine
end

