-- ==== Sys2Proof/Laws/Fetch.lean ====
section
/-!
SUPPORT. What the fetch delivers and how it faults, and the instruction a delivered fetch runs.
-/
namespace Sys2Proof.Machine

open Sys2Proof

/-- The operand words `os` stand in memory from `addr` on. -/
def State.holdsWords (s : State) (addr : Nat) (os : List Word) : Prop :=
  ∀ (j : Nat) (h : j < os.length), s.memRead (addr + j) = some os[j]

/-- The operand words are legal for the first of the kinds, position by position. -/
def legalWords (kinds : List Kind) (os : List Word) : Bool :=
  (kinds.zip os).all fun p => p.1.accepts (.ofWord p.2)

theorem State.holdsWords_nil (s : State) (addr : Nat) : s.holdsWords addr [] := fun _ h => absurd h (Nat.not_lt_zero _)

theorem State.holdsWords_cons {s : State} {addr : Nat} {w : Word} {os : List Word} :
    s.holdsWords addr (w :: os) ↔ s.memRead addr = some w ∧ s.holdsWords (addr + 1) os := by
  constructor
  · intro h
    refine ⟨h 0 (Nat.succ_pos _), fun j hj => ?_⟩
    have := h (j + 1) (Nat.succ_lt_succ hj)
    rw [Nat.add_assoc, Nat.add_comm 1 j]
    exact this
  · rintro ⟨h0, h⟩ j hj
    cases j with
    | zero => exact h0
    | succ j =>
      have := h j (Nat.lt_of_succ_lt_succ hj)
      rw [Nat.add_assoc, Nat.add_comm 1 j] at this
      exact this

/-- A fetch of operands that succeeds delivers as many words as there are kinds, as memory holds them, all legal. -/
theorem State.fetchOperands_ok {s : State} {kinds : List Kind} {addr k : Nat} {got ws : List Word}
    (h : s.fetchOperands addr k got kinds = .ok ws) :
    ∃ os, ws = got ++ os ∧ os.length = kinds.length ∧ s.holdsWords addr os ∧ legalWords kinds os = true := by
  induction kinds generalizing addr k got with
  | nil =>
    simp only [State.fetchOperands, Except.ok.injEq] at h
    exact ⟨[], by simp [h], rfl, s.holdsWords_nil addr, rfl⟩
  | cons kind kinds ih =>
    simp only [State.fetchOperands] at h
    split at h
    · cases h
    · rename_i w hw
      split at h
      · rename_i hacc
        obtain ⟨os, rfl, hlen, hold, hleg⟩ := ih h
        refine ⟨w :: os, by simp, by simp [hlen], State.holdsWords_cons.2 ⟨hw, hold⟩, ?_⟩
        simp only [legalWords, List.zip_cons_cons, List.all_cons, hacc, Bool.true_and]
        exact hleg
      · cases h

/-- Legal words that memory holds, one per kind, are fetched. -/
theorem State.fetchOperands_of {s : State} {kinds : List Kind} {addr k : Nat} {got os : List Word}
    (hlen : os.length = kinds.length) (hold : s.holdsWords addr os) (hleg : legalWords kinds os = true) :
    s.fetchOperands addr k got kinds = .ok (got ++ os) := by
  induction kinds generalizing addr k got os with
  | nil =>
    cases os with
    | nil => simp [State.fetchOperands]
    | cons w os => simp at hlen
  | cons kind kinds ih =>
    cases os with
    | nil => simp at hlen
    | cons w os =>
      obtain ⟨h0, hold⟩ := State.holdsWords_cons.1 hold
      simp only [legalWords, List.zip_cons_cons, List.all_cons, Bool.and_eq_true] at hleg
      simp only [State.fetchOperands, h0, hleg.1, if_true]
      rw [ih (by simpa using hlen) hold hleg.2]
      simp

/-- After legal words that memory holds, the fetch goes on with the kinds that are left. -/
theorem State.fetchOperands_prefix {s : State} {kinds : List Kind} {addr k : Nat} {got os : List Word}
    (hlen : os.length ≤ kinds.length) (hold : s.holdsWords addr os) (hleg : legalWords kinds os = true) :
    s.fetchOperands addr k got kinds =
      s.fetchOperands (addr + os.length) (k + os.length) (got ++ os) (kinds.drop os.length) := by
  induction os generalizing addr k got kinds with
  | nil => simp
  | cons w os ih =>
    cases kinds with
    | nil => simp at hlen
    | cons kind kinds =>
      obtain ⟨h0, hold⟩ := State.holdsWords_cons.1 hold
      simp only [legalWords, List.zip_cons_cons, List.all_cons, Bool.and_eq_true] at hleg
      simp only [State.fetchOperands, h0, hleg.1, if_true]
      rw [ih (by simpa using hlen) hold hleg.2]
      simp [Nat.add_assoc, Nat.add_comm 1]

/-- How a fetch of operands faults: after legal words that memory holds, at a cell that cannot be read or a word illegal for its
kind. -/
theorem State.fetchOperands_error {s : State} {kinds : List Kind} {addr k : Nat} {got : List Word} {f : FetchFault}
    (h : s.fetchOperands addr k got kinds = .error f) :
    ∃ os, os.length < kinds.length ∧ s.holdsWords addr os ∧
      ((f = { words := got ++ os, trap := .invalidAddress (addr + os.length) } ∧ s.memRead (addr + os.length) = none) ∨
        ∃ w, s.memRead (addr + os.length) = some w ∧
          f = { words := got ++ os ++ [w], trap := .invalidOperand (k + os.length) }) := by
  induction kinds generalizing addr k got with
  | nil => simp [State.fetchOperands] at h
  | cons kind kinds ih =>
    simp only [State.fetchOperands] at h
    split at h
    · rename_i hn
      cases h
      exact ⟨[], by simp, s.holdsWords_nil addr, .inl ⟨by simp, by simpa using hn⟩⟩
    · rename_i w hw
      split at h
      · obtain ⟨os, hlen, hold, hf⟩ := ih h
        refine ⟨w :: os, by simpa using hlen, State.holdsWords_cons.2 ⟨hw, hold⟩, ?_⟩
        simpa [Nat.add_assoc, Nat.add_comm 1] using hf
      · cases h
        exact ⟨[], by simp, s.holdsWords_nil addr, .inr ⟨w, by simpa using hw, by simp⟩⟩

/-- What the fetch of an instruction delivers: an opcode word of the table and its operand words, all legal. -/
theorem State.fetch_ok {s : State} {ws : List Word} (h : s.fetch = .ok ws) :
    ∃ op t os, ws = op :: os ∧ s.memRead s.ip.toNat = some op ∧ Tag.ofWord op = some t ∧ os.length = t.arity ∧
      s.holdsWords (s.ip.toNat + 1) os ∧ legalWords t.kinds os = true := by
  unfold State.fetch at h
  split at h
  · cases h
  · rename_i op hop
    split at h
    · cases h
    · rename_i t ht
      obtain ⟨os, rfl, hlen, hold, hleg⟩ := State.fetchOperands_ok h
      exact ⟨op, t, os, rfl, hop, ht, hlen, hold, hleg⟩

/-- A legal instruction that memory holds at IP is fetched. -/
theorem State.fetch_of {s : State} {op : Word} {t : Tag} {os : List Word} (hop : s.memRead s.ip.toNat = some op)
    (ht : Tag.ofWord op = some t) (hlen : os.length = t.arity) (hold : s.holdsWords (s.ip.toNat + 1) os)
    (hleg : legalWords t.kinds os = true) : s.fetch = .ok (op :: os) := by
  simp only [State.fetch, hop, ht]
  rw [State.fetchOperands_of hlen hold hleg]
  rfl

/-- A well-formed instruction is one whose operands its tag's kinds accept, position by position. -/
theorem wellFormed_eq_accepts (i : Instr) :
    i.wellFormed = (i.tag.kinds.zip i.operands).all fun p => p.1.accepts p.2 := by
  cases i <;>
    simp [Instr.wellFormed, Instr.tag, Tag.kinds, Tag.row, Instr.operands, Kind.accepts_r, Kind.accepts_w, Bool.and_assoc]

/-- The words of a well-formed instruction that memory holds at IP are what the fetch delivers. -/
theorem State.fetch_decoded {s : State} {i : Instr} {ws : List Word} (hd : decode ws = .ok (i, []))
    (hwf : i.wellFormed = true) (hm : s.holdsWords s.ip.toNat ws) : s.fetch = .ok ws := by
  cases ws with
  | nil => simp [decode] at hd
  | cons op ws =>
    simp only [decode] at hd
    split at hd
    · cases hd
    · rename_i t ht
      obtain ⟨rfl, os, hops, hlen, rfl⟩ := decodeTag_ok hd
      obtain ⟨h0, hold⟩ := State.holdsWords_cons.1 hm
      rw [wellFormed_eq_accepts, hops, List.zip_map_right, List.all_map] at hwf
      rw [List.append_nil] at hold ⊢
      exact State.fetch_of h0 ht hlen hold hwf

/-- A fault of the decode stage, as `DecodeFault` describes it, is the fault the fetch answers. -/
theorem State.fetch_of_decodeFault {s : State} {read : Nat → Option Word} {ip : Nat} {ws : List Word} {trap : Trap}
    (h : DecodeFault read ip ws trap) (hread : ∀ x, s.memRead x = read x) (hip : s.ip.toNat = ip) :
    s.fetch = .error { words := ws, trap := trap } := by
  unfold State.fetch
  rw [hip, hread]
  cases h with
  | opcodeUnset h => simp only [h]
  | unknownOpcode op h hop => simp only [h, (Tag.ofWord_eq_none op).2 hop]
  | operandUnset op t ws h ht hlen hws hlegal hnone =>
    simp only [h, ht]
    rw [State.fetchOperands_prefix (Nat.le_of_lt hlen) (fun j hj => by rw [hread]; exact hws j hj) hlegal,
      List.drop_eq_getElem_cons hlen]
    simp only [State.fetchOperands, hread, hnone, List.cons_append, List.nil_append]
  | operandIllegal op t ws w kind h ht hws hlegal hw hkind hill =>
    obtain ⟨hlen, rfl⟩ := List.getElem?_eq_some_iff.1 hkind
    simp only [h, ht]
    rw [State.fetchOperands_prefix (Nat.le_of_lt hlen) (fun j hj => by rw [hread]; exact hws j hj) hlegal,
      List.drop_eq_getElem_cons hlen]
    simp only [State.fetchOperands, hread, hw, hill, Bool.false_eq_true, if_false, List.cons_append, List.nil_append,
      Nat.zero_add]

/-- The fetch depends on memory, the registers and IP alone. -/
theorem State.fetch_congr {s t : State} (hm : t.mem = s.mem) (hr : t.regs = s.regs) (hi : t.ip = s.ip) :
    t.fetch = s.fetch := by
  have hread : ∀ a, t.memRead a = s.memRead a := State.memRead_congr hm hr
  have hops : ∀ kinds addr k got, t.fetchOperands addr k got kinds = s.fetchOperands addr k got kinds := by
    intro kinds
    induction kinds with
    | nil => intro addr k got; rfl
    | cons kind kinds ih => intro addr k got; simp only [State.fetchOperands, hread, ih]
  simp only [State.fetch, hread, hi, hops]

/-- The words of a delivered fetch decode, with none left. -/
theorem State.decode_of_fetch {s : State} {ws : List Word} (h : s.fetch = .ok ws) : ∃ i, decode ws = .ok (i, []) := by
  obtain ⟨op, t, os, rfl, _, ht, hlen, _, _⟩ := State.fetch_ok h
  obtain ⟨i, hi⟩ := decodeTag_total t os hlen
  exact ⟨i, by simp [decode, ht, hi]⟩

/-- What one whole step of the engine is: a fault of the fetch, or `exec` of the decoded instruction. -/
theorem State.runInstruction_cases (s : State) :
    (∃ f, s.fetch = .error f ∧ s.runInstruction = .next (s.enterFault f.words f.trap)) ∨
      ∃ ws i, s.fetch = .ok ws ∧ decode ws = .ok (i, []) ∧ s.runInstruction = exec i s := by
  cases h : s.fetch with
  | error f => exact .inl ⟨f, rfl, by simp [State.runInstruction, h]⟩
  | ok ws =>
    obtain ⟨i, hi⟩ := State.decode_of_fetch h
    exact .inr ⟨ws, i, rfl, hi, by simp [State.runInstruction, h, hi]⟩

/-- At the words of a well-formed instruction, one whole step is `exec` of it. -/
theorem State.runInstruction_decoded {s : State} {i : Instr} {ws : List Word} (hd : decode ws = .ok (i, []))
    (hwf : i.wellFormed = true) (hm : s.holdsWords s.ip.toNat ws) : s.runInstruction = exec i s := by
  simp [State.runInstruction, State.fetch_decoded hd hwf hm, hd]

/-- One whole step always answers a next state. -/
theorem State.runInstruction_next (s : State) : ∃ t, s.runInstruction = .next t := by
  rcases s.runInstruction_cases with ⟨f, _, h⟩ | ⟨ws, i, _, _, h⟩
  · exact ⟨_, h⟩
  · obtain ⟨t, ht⟩ := exec_next i s
    exact ⟨t, h.trans ht⟩

end Sys2Proof.Machine
end

