-- ==== Sys2Proof/Laws/PerInstr.lean ====
section
/-!
SUPPORT. A fact of the syntax stated per constructor: a well-formed instruction is one whose operands are legal for the kinds of
its row of 30_encoding.md R96, position by position.
-/
namespace Sys2Proof.Laws

open Sys2Proof

/-- `WellFormed.lean` agrees with the table of kinds the fetch checks by (30_encoding.md R96, R105). -/
def KindsAgree.Statement (i : Instr) : Prop :=
  i.operands.length = i.tag.arity ∧
    i.wellFormed = ((i.tag.kinds.zip i.operands).all fun p => p.1.accepts p.2)

theorem KindsAgree.halt : KindsAgree.Statement .halt := ⟨rfl, rfl⟩

theorem KindsAgree.set (a b : Operand) : KindsAgree.Statement (.set a b) :=
  ⟨rfl, by simp [Instr.wellFormed, Instr.tag, Tag.kinds, Tag.row, Instr.operands, Kind.accepts_r, Kind.accepts_w]⟩

theorem KindsAgree.push (a : Operand) : KindsAgree.Statement (.push a) :=
  ⟨rfl, by simp [Instr.wellFormed, Instr.tag, Tag.kinds, Tag.row, Instr.operands, Kind.accepts_r]⟩

theorem KindsAgree.pop (a : Operand) : KindsAgree.Statement (.pop a) :=
  ⟨rfl, by simp [Instr.wellFormed, Instr.tag, Tag.kinds, Tag.row, Instr.operands, Kind.accepts_w]⟩

theorem KindsAgree.eq (a b c : Operand) : KindsAgree.Statement (.eq a b c) :=
  ⟨rfl, by simp [Instr.wellFormed, Instr.tag, Tag.kinds, Tag.row, Instr.operands, Kind.accepts_r, Kind.accepts_w, Bool.and_assoc]⟩

theorem KindsAgree.gt (a b c : Operand) : KindsAgree.Statement (.gt a b c) :=
  ⟨rfl, by simp [Instr.wellFormed, Instr.tag, Tag.kinds, Tag.row, Instr.operands, Kind.accepts_r, Kind.accepts_w, Bool.and_assoc]⟩

theorem KindsAgree.jmp (a : Operand) : KindsAgree.Statement (.jmp a) :=
  ⟨rfl, by simp [Instr.wellFormed, Instr.tag, Tag.kinds, Tag.row, Instr.operands, Kind.accepts_r]⟩

theorem KindsAgree.jmpIfTrue (a b : Operand) : KindsAgree.Statement (.jmpIfTrue a b) :=
  ⟨rfl, by simp [Instr.wellFormed, Instr.tag, Tag.kinds, Tag.row, Instr.operands, Kind.accepts_r]⟩

theorem KindsAgree.jmpIfFalse (a b : Operand) : KindsAgree.Statement (.jmpIfFalse a b) :=
  ⟨rfl, by simp [Instr.wellFormed, Instr.tag, Tag.kinds, Tag.row, Instr.operands, Kind.accepts_r]⟩

theorem KindsAgree.add (a b c : Operand) : KindsAgree.Statement (.add a b c) :=
  ⟨rfl, by simp [Instr.wellFormed, Instr.tag, Tag.kinds, Tag.row, Instr.operands, Kind.accepts_r, Kind.accepts_w, Bool.and_assoc]⟩

theorem KindsAgree.mult (a b c : Operand) : KindsAgree.Statement (.mult a b c) :=
  ⟨rfl, by simp [Instr.wellFormed, Instr.tag, Tag.kinds, Tag.row, Instr.operands, Kind.accepts_r, Kind.accepts_w, Bool.and_assoc]⟩

theorem KindsAgree.mod (a b c : Operand) : KindsAgree.Statement (.mod a b c) :=
  ⟨rfl, by simp [Instr.wellFormed, Instr.tag, Tag.kinds, Tag.row, Instr.operands, Kind.accepts_r, Kind.accepts_w, Bool.and_assoc]⟩

theorem KindsAgree.and (a b c : Operand) : KindsAgree.Statement (.and a b c) :=
  ⟨rfl, by simp [Instr.wellFormed, Instr.tag, Tag.kinds, Tag.row, Instr.operands, Kind.accepts_r, Kind.accepts_w, Bool.and_assoc]⟩

theorem KindsAgree.or (a b c : Operand) : KindsAgree.Statement (.or a b c) :=
  ⟨rfl, by simp [Instr.wellFormed, Instr.tag, Tag.kinds, Tag.row, Instr.operands, Kind.accepts_r, Kind.accepts_w, Bool.and_assoc]⟩

theorem KindsAgree.not (a b : Operand) : KindsAgree.Statement (.not a b) :=
  ⟨rfl, by simp [Instr.wellFormed, Instr.tag, Tag.kinds, Tag.row, Instr.operands, Kind.accepts_r, Kind.accepts_w]⟩

theorem KindsAgree.rMem (a b : Operand) : KindsAgree.Statement (.rMem a b) :=
  ⟨rfl, by simp [Instr.wellFormed, Instr.tag, Tag.kinds, Tag.row, Instr.operands, Kind.accepts_r, Kind.accepts_w]⟩

theorem KindsAgree.wMem (a b : Operand) : KindsAgree.Statement (.wMem a b) :=
  ⟨rfl, by simp [Instr.wellFormed, Instr.tag, Tag.kinds, Tag.row, Instr.operands, Kind.accepts_r]⟩

theorem KindsAgree.call (a : Operand) : KindsAgree.Statement (.call a) :=
  ⟨rfl, by simp [Instr.wellFormed, Instr.tag, Tag.kinds, Tag.row, Instr.operands, Kind.accepts_r]⟩

theorem KindsAgree.ret : KindsAgree.Statement .ret := ⟨rfl, rfl⟩

theorem KindsAgree.out (a : Operand) : KindsAgree.Statement (.out a) :=
  ⟨rfl, by simp [Instr.wellFormed, Instr.tag, Tag.kinds, Tag.row, Instr.operands, Kind.accepts_r]⟩

theorem KindsAgree.input (a : Operand) : KindsAgree.Statement (.input a) :=
  ⟨rfl, by simp [Instr.wellFormed, Instr.tag, Tag.kinds, Tag.row, Instr.operands, Kind.accepts_w]⟩

theorem KindsAgree.noop : KindsAgree.Statement .noop := ⟨rfl, rfl⟩

end Sys2Proof.Laws
end

