-- ==== Sys2Proof/Machine/Assembler.lean ====
section
/-!
DEFINITION. The assembly syntax of test programs and listings (30_encoding.md R109, R110). There are no pseudo-instructions: a
statement assembles to one instruction or, with `.word`, to one data word.
-/
namespace Sys2Proof.Machine

open Sys2Proof

/-- The mnemonic of a tag, in lower case (30_encoding.md R96, R109). -/
def tagSpelling : Tag → List Char
  | .halt => ['h', 'a', 'l', 't']
  | .set => ['s', 'e', 't']
  | .push => ['p', 'u', 's', 'h']
  | .pop => ['p', 'o', 'p']
  | .eq => ['e', 'q']
  | .gt => ['g', 't']
  | .jmp => ['j', 'm', 'p']
  | .jmpIfTrue => ['j', 'm', 'p', 'i', 'f', 't', 'r', 'u', 'e']
  | .jmpIfFalse => ['j', 'm', 'p', 'i', 'f', 'f', 'a', 'l', 's', 'e']
  | .add => ['a', 'd', 'd']
  | .mult => ['m', 'u', 'l', 't']
  | .mod => ['m', 'o', 'd']
  | .and => ['a', 'n', 'd']
  | .or => ['o', 'r']
  | .not => ['n', 'o', 't']
  | .rMem => ['r', 'm', 'e', 'm']
  | .wMem => ['w', 'm', 'e', 'm']
  | .call => ['c', 'a', 'l', 'l']
  | .ret => ['r', 'e', 't']
  | .out => ['o', 'u', 't']
  | .input => ['i', 'n']
  | .noop => ['n', 'o', 'o', 'p']

/-- A lower-case letter for an upper-case one: mnemonics are "matched without regard to case" (30_encoding.md R109). -/
def lowerChar (c : Char) : Char :=
  if 65 ≤ c.toNat ∧ c.toNat ≤ 90 then Char.ofNat (c.toNat + 32) else c

/-- The pieces of a text between the characters that satisfy `sep`. -/
def splitChars (sep : Char → Bool) : List Char → List (List Char)
  | [] => [[]]
  | c :: cs =>
    if sep c then [] :: splitChars sep cs
    else
      match splitChars sep cs with
      | [] => [[c]]
      | w :: ws => (c :: w) :: ws

/-- A blank inside a line. -/
def blankChar (c : Char) : Bool := c = ' ' || c = '\t' || c = '\r'

/-- A text without the blanks at its two ends. -/
def trimChars (cs : List Char) : List Char :=
  ((cs.dropWhile blankChar).reverse.dropWhile blankChar).reverse

/-- A decimal integer, most significant digit first; `acc` is what has been read. -/
def decimalFrom (acc : Nat) : List Char → Option Nat
  | [] => some acc
  | c :: cs => if 48 ≤ c.toNat ∧ c.toNat ≤ 57 then decimalFrom (acc * 10 + (c.toNat - 48)) cs else none

/-- A decimal integer up to `limit`; at least one digit. -/
def decimal (limit : Nat) (cs : List Char) : Option Nat :=
  if cs = [] then none
  else match decimalFrom 0 cs with
    | some n => if n ≤ limit then some n else none
    | none => none

/-- An operand: `r0` to `r7` assembles to 32768 to 32775, a decimal integer 0 to 32767 to itself (30_encoding.md R109). -/
def operandWord (cs : List Char) : Option Word :=
  match cs with
  | ['r', k] => (decimal 7 [k]).map fun n => BitVec.ofNat 16 (32768 + n)
  | _ => (decimal 32767 cs).map fun n => BitVec.ofNat 16 n

/-- Every operand of a statement, in encoding order, or none if one of them is not written as R109 says. -/
def operandWords : List (List Char) → Option (List Word)
  | [] => some []
  | o :: os =>
    match operandWord (trimChars o), operandWords os with
    | some w, some ws => some (w :: ws)
    | some _, none => none
    | none, _ => none

/-- One statement that is not blank: a mnemonic and its operands separated by commas, or `.word n` (30_encoding.md R109). The rule
makes the mnemonic case-insensitive and is silent on the directive; the model reads `.word` without regard to case too. DESIGN
CHOICE (log entry 17), safe. -/
def assembleStatement (cs : List Char) : Option (List Word) :=
  let name := (cs.takeWhile fun c => !blankChar c).map lowerChar
  let rest := trimChars (cs.dropWhile fun c => !blankChar c)
  if name = ['.', 'w', 'o', 'r', 'd'] then (decimal 65535 rest).map fun n => [BitVec.ofNat 16 n]
  else
    match Tag.all.find? fun t => tagSpelling t == name with
    | none => none
    | some t =>
      match operandWords (if rest = [] then [] else splitChars (fun c => c = ',') rest) with
      | none => none
      | some ws => if ws.length = t.arity then some (BitVec.ofNat 16 t.value :: ws) else none

/-- The statements of a text one after another; a blank one assembles to nothing. -/
def assembleAll : List (List Char) → Option (List Word)
  | [] => some []
  | c :: cs =>
    match (if trimChars c = [] then some [] else assembleStatement (trimChars c)), assembleAll cs with
    | some ws, some rest => some (ws ++ rest)
    | some _, none => none
    | none, _ => none

/-- Assemble a text: "Statements are separated by `;` or by newlines" (30_encoding.md R109). DESIGN CHOICE for blanks and blank
statements (log entry 17), safe. -/
def assemble (text : List Char) : Option (List Word) :=
  assembleAll (splitChars (fun c => c = ';' || c = '\n') text)

end Sys2Proof.Machine
end

