-- ==== Sys2Proof/Tests/Slice0.lean ====
section
/-!
SUPPORT. The model's own tests: expected results from the vectors of 95_test_vectors.md (V, W) or worked out by hand from the rule
named beside each; and, for every statement with hypotheses, a state and operands that meet them.
-/
namespace Sys2Proof.Tests

open Sys2Proof Sys2Proof.Machine

/-! ## Helpers -/

/-- Reset, the words loaded from address 0, capacity 16. -/
def boot (words : List Word) : State := { State.reset with mem := imageCells 0 words, stackCapacity := 16 }

/-- As `boot`, the words loaded at `ip` and IP there. -/
def bootAt (ip : Word) (words : List Word) : State :=
  { State.reset with mem := imageCells ip.toNat words, ip := ip, stackCapacity := 16 }

/-- `boot` with registers r0, r1, r2 set. -/
def bootRegs (x0 x1 x2 : Word) (words : List Word) : State :=
  (((boot words).setReg 0 x0).setReg 1 x1).setReg 2 x2

/-- The state after one step, or the state itself where there is none. -/
def after (s : State) : State :=
  match step s with
  | .next t => t
  | .fault _ => s
  | .refused _ => s

/-- Whether an outcome is a next state. -/
def isNext : Host.Outcome State Fault Refusal → Bool
  | .next _ => true
  | .fault _ => false
  | .refused _ => false

/-- Why an outcome is a stop, if it is one. -/
def stopOf : Host.Outcome State Fault Refusal → Option Fault
  | .next _ => none
  | .fault f => some f
  | .refused _ => none

/-! ## WellFormed refuses -/

theorem test_wellFormed_add : (Instr.add (.register 0) (.literal 4) (.register 7)).wellFormed = true := by decide
theorem test_illFormed_literal_destination : (Instr.set (.literal 5) (.literal 7)).wellFormed = false := by decide
theorem test_illFormed_invalid_destination : (Instr.pop (.invalid 40000)).wellFormed = false := by decide
theorem test_illFormed_invalid_source : (Instr.add (.register 0) (.literal 1) (.invalid 32776)).wellFormed = false := by decide
theorem test_illFormed_large_literal : (Instr.push (.literal 32768)).wellFormed = false := by decide
theorem test_classed_refuses : (Operand.invalid 32775).classed = false ∧ (Operand.literal 32768).classed = false := by decide

/-! ## Decode: one word list per constructor, written out from 30_encoding.md R93, R96, R102 -/

theorem test_decode_halt : decode [0x0000] = .ok (.halt, []) := by decide
theorem test_decode_set : decode [0x0001, 0x8002, 0x04D2] = .ok (.set (.register 2) (.literal 1234), []) := by decide
theorem test_decode_push : decode [0x0002, 0x8000] = .ok (.push (.register 0), []) := by decide
theorem test_decode_pop : decode [0x0003, 0x8003] = .ok (.pop (.register 3), []) := by decide
theorem test_decode_eq :
    decode [0x0004, 0x8000, 0x0003, 0x8001] = .ok (.eq (.register 0) (.literal 3) (.register 1), []) := by decide
theorem test_decode_gt :
    decode [0x0005, 0x8001, 0x8000, 0x7FFF] = .ok (.gt (.register 1) (.register 0) (.literal 32767), []) := by decide
theorem test_decode_jmp : decode [0x0006, 0x0064] = .ok (.jmp (.literal 100), []) := by decide
theorem test_decode_jmpIfTrue :
    decode [0x0007, 0x8000, 0x0032] = .ok (.jmpIfTrue (.register 0) (.literal 50), []) := by decide
theorem test_decode_jmpIfFalse :
    decode [0x0008, 0x0001, 0x8006] = .ok (.jmpIfFalse (.literal 1) (.register 6), []) := by decide
theorem test_decode_add :
    decode [0x0009, 0x8000, 0x0004, 0x0005] = .ok (.add (.register 0) (.literal 4) (.literal 5), []) := by decide
theorem test_decode_mult :
    decode [0x000A, 0x8000, 0x00C8, 0x00C8] = .ok (.mult (.register 0) (.literal 200) (.literal 200), []) := by decide
theorem test_decode_mod :
    decode [0x000B, 0x8000, 0x000A, 0x0003] = .ok (.mod (.register 0) (.literal 10) (.literal 3), []) := by decide
theorem test_decode_and :
    decode [0x000C, 0x8000, 0x7FFF, 0x00FF] = .ok (.and (.register 0) (.literal 32767) (.literal 255), []) := by decide
theorem test_decode_or :
    decode [0x000D, 0x8000, 0x4000, 0x0001] = .ok (.or (.register 0) (.literal 16384) (.literal 1), []) := by decide
theorem test_decode_not : decode [0x000E, 0x8004, 0x8005] = .ok (.not (.register 4) (.register 5), []) := by decide
theorem test_decode_rMem : decode [0x000F, 0x8000, 0x0064] = .ok (.rMem (.register 0) (.literal 100), []) := by decide
theorem test_decode_wMem : decode [0x0010, 0x0064, 0x8007] = .ok (.wMem (.literal 100) (.register 7), []) := by decide
theorem test_decode_call : decode [0x0011, 0x001E] = .ok (.call (.literal 30), []) := by decide
theorem test_decode_ret : decode [0x0012, 0x0000] = .ok (.ret, [0x0000]) := by decide
theorem test_decode_out : decode [0x0013, 0x8000] = .ok (.out (.register 0), []) := by decide
theorem test_decode_in : decode [0x0014, 0x8001] = .ok (.input (.register 1), []) := by decide
theorem test_decode_noop : decode [0x0015] = .ok (.noop, []) := by decide

/-- V6, V7, V8: no register alias for opcodes (30_encoding.md R91, R104). -/
theorem test_decode_unknown :
    decode [22] = .error (.unknownOpcode 22) ∧ decode [32768, 1] = .error (.unknownOpcode 32768) ∧
      decode [65535] = .error (.unknownOpcode 65535) := by decide
theorem test_decode_missing_operand : decode [9, 32768, 4] = .error (.missingOperand .add) ∧ decode [] = .error .noOpcode := by
  decide
theorem test_decode_invalid_operand : decode [2, 32776] = .ok (.push (.invalid 32776), []) := by decide

/-- The numbering of spec/opcode_table.json: bit 0 is the low bit of the first word. -/
theorem test_decodeTableWord :
    decodeTableWord 16 0 = some .halt ∧ decodeTableWord 16 21 = some .noop ∧ decodeTableWord 16 22 = none ∧
      decodeTableWord 64 (9 + 65536 * (32768 + 65536 * (4 + 65536 * 5))) =
        some (.add (.register 0) (.literal 4) (.literal 5)) := by decide
theorem test_decodeTableWord_every_opcode : ∀ n : Fin 22, (decodeTableWord 16 n.val).isSome = true := by decide
theorem test_step_runs_every_opcode_after_reset :
    ∀ n : Fin 22, isNext (step (State.reset.withFetchWord 16 n.val)) = true := by decide
/-- Push is no stop at the capacity of reset, whatever that is. -/
theorem test_push_runs_after_reset : (after (State.reset.withFetchWord 32 (2 + 65536 * 5))).stack = [5] := by decide

/-! ## Fetch and the priority of its faults -/

/-- V3. -/
theorem test_fetch_invalid_source :
    (after (boot [1, 32768, 32776])).fault.fcause = 2 ∧ (after (boot [1, 32768, 32776])).fault.fopk = 1 ∧
      (after (boot [1, 32768, 32776])).fault.fnops = 2 ∧ (after (boot [1, 32768, 32776])).fault.fopn1 = 32776 := by decide
/-- V4: the literal destination is reported before the cell after it is read. -/
theorem test_fetch_literal_destination :
    (after (boot [1, 5])).fault.fcause = 2 ∧ (after (boot [1, 5])).fault.fopk = 0 ∧ (after (boot [1, 5])).fault.fnops = 1 := by
  decide
/-- V6. -/
theorem test_fetch_unknown_opcode :
    (after (boot [22])).engine = .faulted ∧ (after (boot [22])).fault.fcause = 1 ∧ (after (boot [22])).fault.fopc = 22 ∧
      (after (boot [22])).fault.fopcV = 1 ∧ (after (boot [22])).fault.fnops = 0 := by decide
/-- V10. -/
theorem test_fetch_unset_opcode :
    (after (bootAt 100 [])).fault.fcause = 5 ∧ (after (bootAt 100 [])).fault.faddr = 100 ∧
      (after (bootAt 100 [])).fault.fip = 100 ∧ (after (bootAt 100 [])).fault.fopcV = 0 := by decide
/-- V11. -/
theorem test_fetch_unset_operand :
    (after (boot [1, 32768])).fault.faddr = 2 ∧ (after (boot [1, 32768])).fault.fnops = 1 ∧
      (after (boot [1, 32768])).fault.fopn0 = 32768 := by decide
/-- V12: unset alias cells are fetched as the registers. -/
theorem test_fetch_through_alias : (after { bootRegs 21 0 0 [] with ip := 32768 }).ip = 32769 := by decide
/-- V13. -/
theorem test_fetch_beyond_memory :
    (after (bootAt 65533 [9, 32768, 1])).fault.faddr = 65536 ∧ (after (bootAt 65533 [9, 32768, 1])).fault.fnops = 2 := by decide
/-- V14. -/
theorem test_used_successor :
    (after (bootAt 65532 [9, 32768, 1, 1])).fault.faddr = 65536 ∧ (after (bootAt 65532 [9, 32768, 1, 1])).fault.fnops = 3 ∧
      (after (bootAt 65532 [9, 32768, 1, 1])).getReg 0 = 0 ∧ (after (bootAt 65532 [9, 32768, 1, 1])).ip = 65532 := by decide

/-! ## One step of each instruction -/

/-- V20. -/
theorem test_set : (after (boot [1, 32770, 1234])).getReg 2 = 1234 ∧ (after (boot [1, 32770, 1234])).ip = 3 := by decide
/-- 41_set_stack.md R161 (b): all 16 bits. -/
theorem test_set_large : (after (bootRegs 65535 0 0 [1, 32769, 32768])).getReg 1 = 65535 := by decide
/-- V22. -/
theorem test_push : (after (bootRegs 7 0 0 [2, 32768])).stack = [7] ∧ (after (bootRegs 7 0 0 [2, 32768])).ip = 2 := by decide
/-- V24, its second Push. -/
theorem test_push_overflow :
    (after { boot [2, 1, 2, 2] with stackCapacity := 1, stack := [1], ip := 2 }).fault.fcause = 6 ∧
      (after { boot [2, 1, 2, 2] with stackCapacity := 1, stack := [1], ip := 2 }).stack = [1] := by decide
/-- V25: the stack [5, 9] bottom first is the list 9, 5. -/
theorem test_pop :
    (after { boot [3, 32771] with stack := [9, 5] }).getReg 3 = 9 ∧
      (after { boot [3, 32771] with stack := [9, 5] }).stack = [5] := by decide
/-- V26. -/
theorem test_pop_underflow :
    (after (boot [3, 32768])).fault.fcause = 3 ∧ (after (boot [3, 32768])).ip = 0 := by decide
/-- V30. -/
theorem test_eq : (after (boot [4, 32768, 3, 3])).getReg 0 = 1 := by decide
/-- V32. -/
theorem test_eq_destination_is_source : (after (bootRegs 17 0 0 [4, 32768, 32768, 32768])).getReg 0 = 1 := by decide
/-- V35. -/
theorem test_gt_unsigned : (after (bootRegs 40000 0 0 [5, 32770, 32768, 32767])).getReg 2 = 1 := by decide
/-- V34. -/
theorem test_gt_strict : (after (bootRegs 0 9 0 [5, 32769, 4, 4])).getReg 1 = 0 := by decide
/-- V15. -/
theorem test_jmp_at_end : (after (bootAt 65534 [6, 0])).ip = 0 ∧ (after (bootAt 65534 [6, 0])).engine = .running := by decide
/-- V41. -/
theorem test_jmp_register : (after (bootRegs 40000 0 0 [6, 32768])).ip = 40000 := by decide
/-- V44. -/
theorem test_jmpIfTrue_large : (after (bootRegs 65535 0 0 [7, 32768, 50])).ip = 50 := by decide
/-- V45. -/
theorem test_jmpIfTrue_target_resolved :
    (after (boot [7, 32768, 40000])).fault.fcause = 2 ∧ (after (boot [7, 32768, 40000])).fault.fopk = 1 := by decide
/-- V46. -/
theorem test_jmpIfFalse_taken : (after (boot [8, 32768, 50])).ip = 50 := by decide
/-- V48. -/
theorem test_jmpIfFalse_not_taken_at_end : (after (bootAt 65533 [8, 1, 0])).fault.faddr = 65536 := by decide
/-- V49. -/
theorem test_call : (after (bootAt 10 [17, 30])).stack = [12] ∧ (after (bootAt 10 [17, 30])).ip = 30 := by decide
/-- V50. -/
theorem test_call_overflow :
    (after { boot [17, 30] with stackCapacity := 1, stack := [99] }).fault.fcause = 6 ∧
      (after { boot [17, 30] with stackCapacity := 1, stack := [99] }).ip = 0 := by decide
/-- V51. -/
theorem test_ret : (after { boot [18] with stack := [12] }).ip = 12 ∧ (after { boot [18] with stack := [12] }).stack = [] := by
  decide
/-- V52. -/
theorem test_ret_empty_halts : (after (bootAt 7 [18])).ip = 8 ∧ (after (bootAt 7 [18])).engine = .halted := by decide
/-- W7, its second step. -/
theorem test_halt :
    (after { boot [21, 0] with ip := 1 }).ip = 2 ∧ (after { boot [21, 0] with ip := 1 }).engine = .halted := by decide
/-- 40_engine.md R140: "Halt at address 65535 faults". -/
theorem test_halt_at_end : (after (bootAt 65535 [0])).engine = .faulted ∧ (after (bootAt 65535 [0])).ip = 65535 := by decide
/-- W7, its first step. -/
theorem test_noop : (after (boot [21, 0])).ip = 1 ∧ (after (boot [21, 0])).engine = .running := by decide
/-- V62. -/
theorem test_add_large : (after (bootRegs 0 40000 0 [9, 32768, 32769, 32769])).getReg 0 = 14464 := by decide
/-- V64. -/
theorem test_add_destination_is_source : (after (bootRegs 20000 0 0 [9, 32768, 32768, 32768])).getReg 0 = 7232 := by decide
/-- V66. -/
theorem test_mult_wraps : (after (boot [10, 32768, 32767, 32767])).getReg 0 = 1 := by decide
/-- V65. -/
theorem test_mult : (after (boot [10, 32768, 200, 200])).getReg 0 = 7232 := by decide
/-- V72: no mask. -/
theorem test_mod_large : (after (bootRegs 0 40000 50000 [11, 32768, 32769, 32770])).getReg 0 = 40000 := by decide
/-- V73. -/
theorem test_mod_zero :
    (after (boot [11, 32768, 32768, 32768])).fault.fcause = 4 ∧ (after (boot [11, 32768, 32768, 32768])).ip = 0 := by decide
/-- V76. -/
theorem test_and_mask : (after (bootRegs 40000 0 0 [12, 32769, 32768, 32768])).getReg 1 = 7232 := by decide
/-- V74. -/
theorem test_and : (after (boot [12, 32768, 32767, 255])).getReg 0 = 255 := by decide
/-- V79. -/
theorem test_or_mask : (after (bootRegs 32768 0 0 [13, 32769, 32768, 1])).getReg 1 = 1 := by decide
/-- V78. -/
theorem test_or : (after (boot [13, 32768, 21845, 10922])).getReg 0 = 32767 := by decide
/-- V83. -/
theorem test_not_large : (after (bootRegs 0 40000 0 [14, 32768, 32769])).getReg 0 = 25535 := by decide
/-- V80. -/
theorem test_not_zero : (after (boot [14, 32768, 0])).getReg 0 = 32767 := by decide
/-- V92. -/
theorem test_rMem_alias : (after (bootRegs 0 32770 77 [15, 32768, 32769])).getReg 0 = 77 := by decide
/-- V91. -/
theorem test_rMem_unset :
    (after (boot [15, 32768, 100])).fault.fcause = 5 ∧ (after (boot [15, 32768, 100])).fault.faddr = 100 := by decide
/-- V96, its WMem: the alias cell is memory, the register keeps its value. -/
theorem test_wMem_alias :
    (after (bootRegs 5 32768 0 [16, 32769, 9])).mem.read 32768 = some 9 ∧
      (after (bootRegs 5 32768 0 [16, 32769, 9])).getReg 0 = 5 := by decide
/-- V97: the next fetch sees Noop. -/
theorem test_wMem_self_modifies : (after (boot [16, 3, 21, 22])).fetch = .ok [21] := by decide
/-- V101. -/
theorem test_out_low_byte : (after (boot [19, 321])).output = [65] := by decide
/-- 46_io.md R266: appended after what was emitted before. -/
theorem test_out_appends : (after { boot [19, 10] with output := [72] }).output = [72, 10] := by decide
/-- V103: the line "AB" and a newline is the bytes 65, 66, 10. -/
theorem test_in :
    (after { boot [20, 32768] with answers := [.line [65, 66, 10]] }).getReg 0 = 65 ∧
      (after { boot [20, 32768] with answers := [.line [65, 66, 10]] }).ib = [66, 10] ∧
      (after { boot [20, 32768] with answers := [.line [65, 66, 10]] }).lineRequests = 1 := by decide
/-- V106, its second In: the newline discards the byte after it. -/
theorem test_in_newline :
    (after { boot [20, 32768] with ib := [10, 66] }).getReg 0 = 10 ∧ (after { boot [20, 32768] with ib := [10, 66] }).ib = [] := by
  decide

/-! ## The wait of an In, and the host -/

/-- A state whose In waits for the line it requested. -/
def waiting : State := { boot [20, 32768] with waitInput := true, lineRequests := 1 }

/-- V108. -/
theorem test_in_waits : after (boot [20, 32768]) = waiting ∧ stopOf (step waiting) = some .waitingForInput := by decide
/-- V104: EOF, answered later. -/
theorem test_answer_eof :
    (after { waiting with host := [some (.answer .eof)] }).fault.fcause = 7 ∧
      (after { waiting with host := [some (.answer .eof)] }).waitInput = false := by decide
theorem test_answer_line :
    (after { waiting with host := [some (.answer (.line [72, 105, 10]))] }).getReg 0 = 72 ∧
      (after { waiting with host := [some (.answer (.line [72, 105, 10]))] }).ib = [105, 10] := by decide
/-- 46_io.md R277. -/
theorem test_intercepted_line : after { waiting with host := [some (.intercept [72, 10])] } = waiting := by decide
/-- 60_exceptions.md R335: the line ends the single step, in Paused. -/
theorem test_answer_ends_single_step :
    (after { waiting with singleStep := true, host := [some (.answer (.line [72, 10]))] }).engine = .paused ∧
      (after { waiting with singleStep := true, host := [some (.answer (.line [72, 10]))] }).getReg 0 = 72 := by decide
/-- 46_io.md R280: at most one request is outstanding. -/
theorem test_in_again_makes_no_request : (after { waiting with answers := [.eof] }).lineRequests = 1 := by decide
/-- 46_io.md R274: a pause abandons the wait. -/
theorem test_pause_in_wait :
    (after { waiting with host := [some (.call .pause)] }).engine = .paused ∧
      (after { waiting with host := [some (.call .pause)] }).waitInput = false := by decide
/-- 60_exceptions.md R336. -/
theorem test_breakpoint : (after { boot [21] with bp := [0] }).engine = .paused ∧ (after { boot [21] with bp := [0] }).ip = 0 := by
  decide
theorem test_breakpoint_skipped :
    (after { boot [21] with bp := [0], skipBp := true }).ip = 1 ∧
      (after { boot [21] with bp := [0], skipBp := true }).skipBp = false := by decide
/-- 60_exceptions.md R335. -/
theorem test_step_one_instruction :
    (after { boot [21] with engine := .paused, bp := [0], host := [some (.call .stepOneInstruction)] }).ip = 1 ∧
      (after { boot [21] with engine := .paused, bp := [0], host := [some (.call .stepOneInstruction)] }).engine = .paused := by
  decide
/-- 60_exceptions.md R313 item 3 in a single step: the record names the operand, and STATE is Faulted. -/
theorem test_step_one_instruction_faults :
    (after { boot [1, 5] with engine := .paused, host := [some (.call .stepOneInstruction)] }).fault.fcause = 2 ∧
      (after { boot [1, 5] with engine := .paused, host := [some (.call .stepOneInstruction)] }).engine = .faulted := by decide
theorem test_run_from_faulted :
    (after { boot [21] with engine := .faulted, host := [some (.call .run)] }).engine = .running ∧
      (after { boot [21] with engine := .faulted, host := [some (.call .run)] }).skipBp = true := by decide
/-- 60_exceptions.md R328, R329: refused in Running; no register alias. -/
theorem test_inspection :
    (after { boot [21] with host := [some (.call .getIp)] }).replies = [.refused] ∧
      (after { boot [21] with engine := .paused, host := [some (.call (.readMemoryWord 32768))] }).replies =
        [.optWord none] := by decide
/-- 60_exceptions.md R333: bottom entry first. -/
theorem test_read_stack :
    (after { boot [21] with engine := .halted, stack := [9, 5], host := [some (.call .readStack)] }).replies =
      [.stack [5, 9]] := by decide
/-- 10_state.md R40: STATUS is 4 while an In waits, 3 in Faulted. -/
theorem test_status : waiting.status = 4 ∧ (after (boot [22])).status = 3 := by decide

/-! ## Loader, display mode, assembler -/

/-- 20_memory.md R63: low byte first. -/
theorem test_image_words : imageWords [9, 0, 0, 128] = some [9, 32768] ∧ imageWords [9, 0, 1] = none := by decide
/-- 70_reset_and_hazards.md R352; 20_memory.md R76. -/
theorem test_load : loadFile none [1] = .loadError ∧ loadFile (some .running) [] = .refused := by decide
/-- V9 and 30_encoding.md R107 (c). -/
theorem test_display :
    displayDecode [(0, 22), (1, 5)] 0 = .unknown 22 ∧ displayDecode [(65535, 2)] 65535 = .known .push [none] := by decide
/-- W6: the text the document writes for its example. -/
theorem test_assemble :
    assemble (String.toList "Add r0,4,5; Out r0; Halt") = some [9, 32768, 4, 5, 19, 32768, 0] := by decide
/-- The second spelling is log entry 17. -/
theorem test_assemble_word :
    assemble (String.toList ".word 65535") = some [65535] ∧ assemble (String.toList ".WORD 5") = some [5] := by decide
theorem test_assemble_refuses : assemble (String.toList "Add r0,4") = none ∧ assemble (String.toList "Set r8,1") = none := by
  decide

/-! ## Witnesses: states and operands that meet the hypotheses of each statement, clause by clause -/

theorem ready_boot (words : List Word) : (boot words).ready := ⟨.inl rfl, rfl, rfl, rfl, .inr (by simp [boot, State.reset])⟩
theorem ready_bootAt (ip : Word) (words : List Word) : (bootAt ip words).ready :=
  ⟨.inl rfl, rfl, rfl, rfl, .inr (by simp [bootAt, State.reset])⟩

theorem witness_EncodeThenDecodeReturnsTheInstruction :
    (Instr.set (.register 7) (.literal 32767)).wellFormed = true ∧
      ∀ o ∈ (Instr.set (.literal 5) (.invalid 32776)).operands, o.classed = true := by decide
theorem witness_DecodeThenEncodeReturnsTheWords : decode [1, 5, 65535, 3] = .ok (.set (.literal 5) (.invalid 65535), [3]) := by
  decide
theorem witness_operand_classes :
    (32767 : Word).toNat ≤ 32767 ∧ (32768 : Word).toNat = 32768 + (0 : Fin 8).val ∧
      (32775 : Word).toNat = 32768 + (7 : Fin 8).val ∧ 32776 ≤ (32776 : Word).toNat := by decide
theorem witness_UnknownOpcodeFaults :
    (boot [22]).ready ∧ (boot [22]).memRead (boot [22]).ip.toNat = some 22 ∧ 22 ≤ (22 : Word).toNat :=
  ⟨ready_boot _, by decide, by decide⟩
theorem witness_FetchFaults_opcode : (boot []).ready ∧ (boot []).memRead (boot []).ip.toNat = none := ⟨ready_boot _, by decide⟩
theorem witness_FetchFaults_operand_unset :
    (bootAt 65533 [9, 32768, 1]).ready ∧ (bootAt 65533 [9, 32768, 1]).memRead 65533 = some 9 ∧ Tag.ofWord 9 = some .add ∧
      ([32768, 1] : List Word).length < Tag.add.arity ∧
      (∀ (j : Nat) (h : j < ([32768, 1] : List Word).length),
        (bootAt 65533 [9, 32768, 1]).memRead (65533 + 1 + j) = some ([32768, 1] : List Word)[j]) ∧
      ((Tag.add.kinds.zip ([32768, 1] : List Word)).all fun p => p.1.accepts (.ofWord p.2)) = true ∧
      (bootAt 65533 [9, 32768, 1]).memRead (65533 + 1 + 2) = none :=
  ⟨ready_bootAt _ _, by decide, by decide, by decide, by decide, by decide, by decide⟩
theorem witness_FetchFaults_operand_illegal :
    (boot [1, 5]).ready ∧ (boot [1, 5]).memRead 0 = some 1 ∧ Tag.ofWord 1 = some .set ∧
      ([] : List Word).length < Tag.set.arity ∧ (boot [1, 5]).memRead (0 + 1 + 0) = some 5 ∧
      Tag.set.kinds[([] : List Word).length]? = some .w ∧ Kind.w.accepts (.ofWord 5) = false :=
  ⟨ready_boot _, by decide, by decide, by decide, by decide, by decide, by decide⟩
theorem witness_StepRunsTheDecodedInstruction :
    (boot [9, 32768, 4, 5]).ready ∧
      decode [9, 32768, 4, 5] = .ok (.add (.register 0) (.literal 4) (.literal 5), []) ∧
      (Instr.add (.register 0) (.literal 4) (.literal 5)).wellFormed = true ∧
      ∀ (j : Nat) (h : j < ([9, 32768, 4, 5] : List Word).length),
        (boot [9, 32768, 4, 5]).memRead ((boot [9, 32768, 4, 5]).ip.toNat + j) = some ([9, 32768, 4, 5] : List Word)[j] :=
  ⟨ready_boot _, by decide, by decide, by decide⟩
theorem witness_UsedSuccessorNeverWraps :
    (Instr.halt.wellFormed = true ∧ Instr.halt.tag.usesSuccessor = true ∧
        (bootAt 65535 []).ip.toNat + 1 + Instr.halt.tag.arity = 65536) ∧
      (Instr.pop (.register 7)).wellFormed = true ∧ (Instr.pop (.register 7)).tag.usesSuccessor = true ∧
        (bootAt 65534 []).ip.toNat + 1 + (Instr.pop (.register 7)).tag.arity = 65536 := by decide
theorem witness_FirstIllegalOperandIsReported :
    (Instr.add (.register 0) (.literal 1) (.invalid 32776)).tag.kinds[2]? = some .r ∧
      (Instr.add (.register 0) (.literal 1) (.invalid 32776)).operands[2]? = some (.invalid 32776) ∧
      Kind.r.accepts (.invalid 32776) = false ∧
      ((((Instr.add (.register 0) (.literal 1) (.invalid 32776)).tag.kinds.zip
        (Instr.add (.register 0) (.literal 1) (.invalid 32776)).operands).take 2).all fun p => p.1.accepts p.2) = true ∧
      (Instr.set (.literal 5) (.invalid 32776)).tag.kinds[0]? = some .w ∧ Kind.w.accepts (.literal 5) = false := by decide
theorem witness_FaultsArePrecise :
    (boot [22]).engine = .running ∧ ∃ t, (boot [22]).runInstruction = .next t ∧ t.engine = .faulted :=
  ⟨rfl, _, rfl, rfl⟩
theorem witness_FaultsArePrecise_execute :
    (boot [3, 32768]).engine = .running ∧ ∃ t, (boot [3, 32768]).runInstruction = .next t ∧ t.engine = .faulted :=
  ⟨rfl, _, rfl, rfl⟩
theorem witness_StoppedEngineHasNoStep :
    (boot []).host = [] ∧ { boot [] with engine := .halted }.engine = .halted ∧
      { boot [] with engine := .faulted }.engine = .faulted ∧ { boot [] with engine := .paused }.engine = .paused ∧
      waiting.host = [] ∧ waiting.engine = .running ∧ waiting.waitInput = true ∧ waiting.answers = [] := by decide
theorem witness_MemReadFollowsTheAliasRule :
    (bootAt 65535 [7]).mem.read 65535 = some 7 ∧ (boot []).mem.read 32768 = none ∧
      32775 = 32768 + (7 : Fin 8).val ∧ (boot []).mem.read 32775 = none ∧ (boot []).mem.read 65535 = none ∧
      ¬(32768 ≤ 65535 ∧ 65535 ≤ 32775) ∧ ¬(32768 ≤ 32767 ∧ 32767 ≤ 32775) ∧ ¬(32768 ≤ 32776 ∧ 32776 ≤ 32775) := by decide
theorem witness_MemWriteStoresUnconditionally : (65535 : Nat) ≠ (0 : Word).toNat ∧ (boot [1, 2]).mem.wf = true := by decide

/-- Two operands that are legal and resolve, and the IPs where an instruction of 2, 3 and 4 words just fits and just does not. -/
theorem witness_operands_and_successors :
    (boot []).operandValue (.literal 32767) = some 32767 ∧ (bootRegs 0 65535 0 []).operandValue (.register 1) = some 65535 ∧
      (bootAt 65533 []).ip.toNat + 2 ≤ 65535 ∧ (bootAt 65534 []).ip.toNat + 2 = 65536 ∧
      (bootAt 65532 []).ip.toNat + 3 ≤ 65535 ∧ (bootAt 65533 []).ip.toNat + 3 = 65536 ∧
      (bootAt 65531 []).ip.toNat + 4 ≤ 65535 ∧ (bootAt 65532 []).ip.toNat + 4 = 65536 ∧
      (bootAt 65534 []).ip.toNat + 1 ≤ 65535 ∧ (bootAt 65535 []).ip.toNat + 1 = 65536 := by decide
theorem witness_SetCopiesTheSource :
    (bootAt 65532 []).operandValue (.register 7) = some 0 ∧ (bootAt 65532 []).ip.toNat + 3 ≤ 65535 ∧
      (bootAt 65533 []).operandValue (.register 7) = some 0 ∧ (bootAt 65533 []).ip.toNat + 3 = 65536 := by decide
theorem witness_PushAppendsOrOverflows :
    (bootAt 65533 []).operandValue (.literal 5) = some 5 ∧ (bootAt 65533 []).ip.toNat + 2 ≤ 65535 ∧
      (bootAt 65533 []).stack.length < (bootAt 65533 []).stackCapacity ∧
      { boot [] with stack := [1], stackCapacity := 1 }.stack.length = { boot [] with stack := [1], stackCapacity := 1 }.stackCapacity ∧
      (bootAt 65534 []).ip.toNat + 2 = 65536 := by decide
theorem witness_PopAssignsOrUnderflows :
    { bootAt 65533 [] with stack := [9, 5] }.stack = 9 :: [5] ∧ { bootAt 65533 [] with stack := [9, 5] }.ip.toNat + 2 ≤ 65535 ∧
      (bootAt 65533 []).stack = [] ∧ (bootAt 65533 []).ip.toNat + 2 ≤ 65535 ∧ (bootAt 65534 []).ip.toNat + 2 = 65536 := by decide
/-- Eq, Gt, Add, Mult, And, Or and AluLaws. -/
theorem witness_three_operands :
    (bootAt 65531 []).operandValue (.literal 0) = some 0 ∧ (bootAt 65531 []).operandValue (.literal 32767) = some 32767 ∧
      (bootAt 65531 []).ip.toNat + 4 ≤ 65535 ∧ (bootAt 65532 []).operandValue (.literal 0) = some 0 ∧
      (bootAt 65532 []).operandValue (.literal 32767) = some 32767 ∧ (bootAt 65532 []).ip.toNat + 4 = 65536 := by decide
theorem witness_JmpSetsIp : (bootAt 65535 []).operandValue (.literal 0) = some 0 := by decide
/-- Both conditional jumps: taken and not taken, the successor in range and at 65536. -/
theorem witness_conditional_jumps :
    (bootAt 65533 []).operandValue (.literal 1) = some 1 ∧ (1 : Word) ≠ 0 ∧ (bootAt 65533 []).operandValue (.literal 0) = some 0 ∧
      (bootAt 65532 []).operandValue (.literal 1) = some 1 ∧ (bootAt 65532 []).operandValue (.literal 0) = some 0 ∧
      (bootAt 65532 []).ip.toNat + 3 ≤ 65535 ∧ (bootAt 65533 []).ip.toNat + 3 = 65536 := by decide
/-- Call and the round trip. -/
theorem witness_CallPushesTheReturnAddress :
    (bootAt 65533 []).operandValue (.literal 30) = some 30 ∧ (bootAt 65533 []).ip.toNat + 2 ≤ 65535 ∧
      (bootAt 65533 []).stack.length < (bootAt 65533 []).stackCapacity ∧
      { boot [] with stack := [99], stackCapacity := 1 }.stack.length =
        { boot [] with stack := [99], stackCapacity := 1 }.stackCapacity ∧
      (bootAt 65534 []).ip.toNat + 2 = 65536 := by decide
theorem witness_RetPopsOrHalts :
    { bootAt 65535 [] with stack := [12] }.stack = 12 :: [] ∧ (bootAt 65534 []).stack = [] ∧
      (bootAt 65534 []).ip.toNat + 1 ≤ 65535 ∧ (bootAt 65535 []).stack = [] ∧ (bootAt 65535 []).ip.toNat + 1 = 65536 := by decide
/-- Halt and Noop. -/
theorem witness_no_operands : (bootAt 65534 []).ip.toNat + 1 ≤ 65535 ∧ (bootAt 65535 []).ip.toNat + 1 = 65536 := by decide
theorem witness_ModWritesTheRemainderOrFaults :
    (bootAt 65531 []).operandValue (.literal 10) = some 10 ∧ (bootAt 65531 []).operandValue (.literal 3) = some 3 ∧
      (3 : Word) ≠ 0 ∧ (bootAt 65531 []).operandValue (.literal 0) = some 0 ∧ (bootAt 65531 []).ip.toNat + 4 ≤ 65535 ∧
      (bootAt 65532 []).operandValue (.literal 0) = some 0 ∧ (bootAt 65532 []).ip.toNat + 4 = 65536 := by decide
theorem witness_NotComplementsFifteenBits :
    (bootAt 65532 []).operandValue (.literal 21845) = some 21845 ∧ (bootAt 65532 []).ip.toNat + 3 ≤ 65535 ∧
      (bootAt 65533 []).operandValue (.literal 21845) = some 21845 ∧ (bootAt 65533 []).ip.toNat + 3 = 65536 := by decide
theorem witness_AluLaws :
    (∃ t, exec (.add (.register 0) (.literal 4) (.literal 5)) (boot []) = .next t) ∧
      (∃ t, exec (.not (.register 0) (.literal 4)) (boot []) = .next t) ∧
      (∃ t, exec (.mod (.register 0) (.literal 4) (.literal 5)) (boot []) = .next t) ∧
      (∃ t, exec (.eq (.register 0) (.literal 4) (.literal 5)) (boot []) = .next t) ∧ (4 : Word).toNat ≤ 32767 ∧ (5 : Word) ≠ 0 :=
  ⟨⟨_, rfl⟩, ⟨_, rfl⟩, ⟨_, rfl⟩, ⟨_, rfl⟩, by decide, by decide⟩
theorem witness_RMemLoadsTheWord :
    (bootAt 65532 [4242]).operandValue (.literal 100) = some 100 ∧ (bootAt 65532 [4242]).memRead 100 = none ∧
      { bootRegs 0 65532 0 [] with mem := [(65532, 4242)], ip := 65532 }.operandValue (.register 1) = some 65532 ∧
      { bootRegs 0 65532 0 [] with mem := [(65532, 4242)], ip := 65532 }.memRead 65532 = some 4242 ∧
      (bootAt 65532 [4242]).ip.toNat + 3 ≤ 65535 ∧ (bootAt 65533 []).operandValue (.literal 100) = some 100 ∧
      (bootAt 65533 []).ip.toNat + 3 = 65536 := by decide
theorem witness_WMemStoresTheWord :
    (bootAt 65532 []).operandValue (.literal 100) = some 100 ∧ (bootAt 65532 []).operandValue (.register 0) = some 0 ∧
      (bootAt 65532 []).ip.toNat + 3 ≤ 65535 ∧ (bootAt 65533 []).operandValue (.literal 100) = some 100 ∧
      (bootAt 65533 []).operandValue (.register 0) = some 0 ∧ (bootAt 65533 []).ip.toNat + 3 = 65536 := by decide
/-- What memory reads as once `v` is stored at `a`. -/
def stored (s : State) (a : Nat) (v : Word) : Nat → Option Word := fun x => if x = a then some v else s.memRead x
/-- The operand word of a Set after the WMem is stored: a legal word, which the fetch delivers. -/
theorem witness_SelfModificationIsSeenByTheNextFetch :
    (boot [16, 5, 7, 1, 32768]).operandValue (.literal 5) = some 5 ∧ (boot [16, 5, 7, 1, 32768]).operandValue (.literal 7) = some 7 ∧
      (boot [16, 5, 7, 1, 32768]).ip.toNat + 3 ≤ 65535 ∧
      (∀ x, stored (boot [16, 5, 7, 1, 32768]) 5 7 x = if x = (5 : Word).toNat then some 7 else (boot [16, 5, 7, 1, 32768]).memRead x) ∧
      decode [1, 32768, 7] = .ok (.set (.register 0) (.literal 7), []) ∧
      (Instr.set (.register 0) (.literal 7)).wellFormed = true ∧
      ∀ (j : Nat) (h : j < ([1, 32768, 7] : List Word).length),
        stored (boot [16, 5, 7, 1, 32768]) 5 7 (0 + 3 + j) = some ([1, 32768, 7] : List Word)[j] :=
  ⟨by decide, by decide, by decide, fun _ => rfl, by decide, by decide, by decide⟩
/-- The same operand word stored as an illegal one, 32776, held by r0: the next fetch faults on it. -/
theorem witness_SelfModificationIsSeenByTheNextFetch_fault :
    (bootRegs 32776 0 0 [16, 5, 32768, 1, 32769]).operandValue (.literal 5) = some 5 ∧
      (bootRegs 32776 0 0 [16, 5, 32768, 1, 32769]).operandValue (.register 0) = some 32776 ∧
      DecodeFault (stored (bootRegs 32776 0 0 [16, 5, 32768, 1, 32769]) 5 32776) (0 + 3) [1, 32769, 32776] (.invalidOperand 1) :=
  ⟨by decide, by decide,
    .operandIllegal 1 .set [32769] 32776 .r (by decide) (by decide) (by decide) (by decide) (by decide) (by decide) (by decide)⟩
theorem witness_OutEmitsTheLowByte :
    (bootAt 65533 []).operandValue (.literal 321) = some 321 ∧ (bootAt 65533 []).ip.toNat + 2 ≤ 65535 ∧
      (bootAt 65534 []).operandValue (.literal 321) = some 321 ∧ (bootAt 65534 []).ip.toNat + 2 = 65536 := by decide
theorem witness_InDeliversTheHeadByte :
    { bootAt 65533 [] with ib := [10, 66] }.ib = 10 :: [66] ∧ { bootAt 65533 [] with ib := [10, 66] }.ip.toNat + 2 ≤ 65535 := by
  decide
theorem witness_InRequestsALineWhenTheBufferIsEmpty :
    (bootAt 65534 []).ip.toNat + 2 = 65536 ∧ (bootAt 65533 []).ip.toNat + 2 ≤ 65535 ∧ (bootAt 65533 []).ib = [] ∧
      (bootAt 65533 []).answers = [] ∧
      { bootAt 65533 [] with answers := [.line [65, 10]] }.answers = .line (65 :: [10]) :: [] ∧
      { bootAt 65533 [] with answers := [.eof] }.answers = .eof :: [] ∧
      { bootAt 65533 [] with answers := [.line []] }.answers = .line [] :: [] := by decide
/-- The wait of a single step, answered by the host's action. -/
def waitingStep (a : Answer) : State := { waiting with singleStep := true, host := [some (.answer a)] }
/-- The same wait at the engine's own turn, the answer ready. -/
def waitingReady (a : Answer) : State := { waiting with singleStep := true, host := [none], answers := [a] }
theorem witness_AnAnswerEndsTheWait :
    (waitingStep (.line [65, 10])).engine = .running ∧ (waitingStep (.line [65, 10])).waitInput = true ∧
      (waitingStep (.line [65, 10])).ib = [] ∧
      (waitingStep (.line [65, 10])).memRead (waitingStep (.line [65, 10])).ip.toNat = some 20 ∧
      (waitingStep (.line [65, 10])).memRead ((waitingStep (.line [65, 10])).ip.toNat + 1) =
        some (BitVec.ofNat 16 (32768 + (0 : Fin 8).val)) ∧
      (waitingStep (.line [65, 10])).ip.toNat + 2 ≤ 65535 ∧
      (waitingStep (.line [65, 10])).host = some (.answer (.line (65 :: [10]))) :: [] ∧
      (waitingStep .eof).host = some (.answer .eof) :: [] ∧
      (waitingStep (.line [])).host = some (.answer (.line [])) :: [] := by decide
theorem witness_AnAnswerEndsTheWait_ready :
    (waitingReady .eof).engineMoves ∧ ([] : List (Option HostAction)) = (waitingReady .eof).host.tail ∧
      (waitingReady .eof).answers = .eof :: [] ∧ (waitingReady (.line [65, 10])).answers = .line (65 :: [10]) :: [] ∧
      (waitingReady .eof).engine = .running ∧ (waitingReady .eof).waitInput = true ∧ (waitingReady .eof).ib = [] ∧
      (waitingReady .eof).memRead (waitingReady .eof).ip.toNat = some 20 ∧ (waitingReady .eof).ip.toNat + 2 ≤ 65535 ∧
      (waitingReady .eof).memRead ((waitingReady .eof).ip.toNat + 1) = some (BitVec.ofNat 16 (32768 + (0 : Fin 8).val)) :=
  ⟨.inr ⟨[], rfl⟩, rfl, rfl, rfl, rfl, rfl, rfl, by decide, by decide, by decide⟩
/-- An intercepted line; an answer in Running with no request, and one in Halted. -/
theorem witness_AnAnswerEndsTheWait_no_effect :
    { waiting with host := [some (.intercept [72, 10])] }.host = some (.intercept [72, 10]) :: [] ∧
      { boot [21] with host := [some (.answer .eof)] }.host = some (.answer .eof) :: [] ∧ (boot [21]).waitInput = false ∧
      { boot [21] with engine := .halted, host := [some (.answer .eof)] }.engine ≠ .running := by decide

/-- The four frames: a next state of an instruction of each, and the premises of their clauses. -/
theorem witness_RegisterWritersFrame :
    Instr.set (.register 0) (.literal 5) ∈
        [Instr.set (.register 0) (.literal 5), .not (.register 0) (.literal 5), .rMem (.register 0) (.literal 5)] ∧
      (∃ t, exec (.set (.register 0) (.literal 5)) (boot []) = .next t) ∧ Operand.register 0 ≠ Operand.register 1 :=
  ⟨by decide, ⟨_, rfl⟩, by decide⟩
theorem witness_StackAndControlFrame :
    (∃ t, exec (.pop (.register 0)) (boot []) = .next t) ∧ Instr.pop (.register 0) ≠ .pop (.register 1) ∧
      (∃ t, exec (.push (.literal 5)) (boot []) = .next t) ∧ (∃ t, exec .ret (boot []) = .next t) ∧
      (∃ t, exec (.jmp (.literal 5)) (boot []) = .next t) ∧ Instr.jmp (.literal 5) ≠ .push (.literal 5) :=
  ⟨⟨_, rfl⟩, by decide, ⟨_, rfl⟩, ⟨_, rfl⟩, ⟨_, rfl⟩, by decide⟩
theorem witness_WMemFrame :
    (∃ t, exec (.wMem (.literal 100) (.literal 7)) (boot []) = .next t) ∧ (boot []).operandValue (.literal 100) = some 100 ∧
      (99 : Nat) ≠ (100 : Word).toNat ∧ (∃ t, exec (.wMem (.invalid 40000) (.literal 7)) (boot []) = .next t) ∧
      (boot []).operandValue (.invalid 40000) = none :=
  ⟨⟨_, rfl⟩, by decide, by decide, ⟨_, rfl⟩, by decide⟩
theorem witness_PortFrame :
    (∃ t, exec (.out (.literal 65)) (boot []) = .next t) ∧ (∃ t, exec (.input (.register 0)) (boot []) = .next t) ∧
      Operand.register 0 ≠ Operand.register 1 :=
  ⟨⟨_, rfl⟩, ⟨_, rfl⟩, by decide⟩
theorem witness_OnlyItsOwnInstructionsChangeEachPart :
    (after (boot [1, 32770, 1234])).getReg 2 ≠ (boot [1, 32770, 1234]).getReg 2 ∧ (after (boot [2, 5])).stack ≠ (boot [2, 5]).stack ∧
      (after (boot [16, 100, 7])).mem ≠ (boot [16, 100, 7]).mem ∧ (after (boot [19, 10])).output ≠ (boot [19, 10]).output ∧
      (after (boot [20, 32768])).lineRequests ≠ (boot [20, 32768]).lineRequests := by decide
theorem witness_NoInstructionReadsStatusOrDebugState :
    (∃ t, exec (.call (.literal 30)) (boot []) = .next t) ∧ (Instr.call (.literal 30)).tag ≠ .input ∧
      (∃ t, exec (.input (.register 0)) waiting = .next t) ∧ true = waiting.waitInput :=
  ⟨⟨_, rfl⟩, by decide, ⟨_, rfl⟩, rfl⟩

theorem witness_RunEndsOnlyByHaltRetOrFault :
    (boot [0]).engineMoves ∧ (boot [0]).engine = .running ∧ ∃ t, step (boot [0]) = .next t ∧ t.engine ≠ .running :=
  ⟨.inl rfl, rfl, _, rfl, by decide⟩
theorem fault_wf_zero : FaultRecord.zero.Wf := ⟨by decide, by decide, by decide, by decide, by decide, by decide, by decide⟩
/-- A legal state whose In waits; its step is a next state once the host answers. -/
theorem witness_EveryStepKeepsTheInvariant :
    { waiting with host := [some (.answer .eof)] }.Inv ∧ ∃ t, step { waiting with host := [some (.answer .eof)] } = .next t :=
  ⟨⟨by decide, by decide, by decide, fun _ => rfl, fun _ => rfl, fun _ => ⟨⟨32768, by decide⟩, by decide⟩, by decide, by decide,
    fault_wf_zero, by decide⟩, _, rfl⟩
theorem witness_LoaderPlacesTheImage :
    ([1] : List Byte).length % 2 = 1 ∧ (List.replicate 131074 (0 : Byte)).length % 2 = 0 ∧
      131072 < (List.replicate 131074 (0 : Byte)).length ∧ (List.replicate 131072 (0 : Byte)).length % 2 = 0 ∧
      (List.replicate 131072 (0 : Byte)).length ≤ 131072 ∧ ([9, 128] : List Byte)[2 * 0]? = some 9 ∧
      ([9, 128] : List Byte)[2 * 0 + 1]? = some 128 ∧ ([9, 128] : List Byte).length ≤ 2 * 1 := by
  simp only [List.length_replicate]; decide
theorem witness_DisplayModeNeverFaults :
    Memory.read [(65535, 22)] 65535 = some 22 ∧ 22 ≤ (22 : Word).toNat ∧ Memory.read [(65535, 2)] 65535 = some 2 ∧
      Tag.ofWord 2 = some .push := by decide
theorem witness_StatusWordFields :
    (boot []).engine = .running ∧ { boot [] with engine := .paused }.engine = .paused ∧
      { boot [] with engine := .halted }.engine = .halted ∧ { boot [] with engine := .faulted }.engine = .faulted := by decide
theorem witness_BreakpointPausesBeforeTheFetch :
    { boot [21] with bp := [0] }.engineMoves ∧ { boot [21] with bp := [0] }.engine = .running ∧
      { boot [21] with bp := [0] }.waitInput = false ∧ { boot [21] with bp := [0] }.skipBp = false ∧
      { boot [21] with bp := [0] }.ip.toNat ∈ { boot [21] with bp := [0] }.bp ∧
      { boot [21] with bp := [0], skipBp := true }.skipBp = true ∧
      ∃ t, step { boot [21] with bp := [0], skipBp := true } = .next t :=
  ⟨.inl rfl, rfl, rfl, rfl, by decide, rfl, _, rfl⟩
/-- The boundary passes the check with SKIP_BP = 1 and with no breakpoint at IP; nothing is pending and no single step is under way. -/
theorem witness_BreakpointPausesBeforeTheFetch_runs :
    { boot [] with bp := [0], skipBp := true }.engineMoves ∧ { boot [] with bp := [0], skipBp := true }.engine = .running ∧
      { boot [] with bp := [0], skipBp := true }.waitInput = false ∧ { boot [] with bp := [0], skipBp := true }.skipBp = true ∧
      (bootAt 1 [21]).ip.toNat ∉ { bootAt 1 [21] with bp := [0] }.bp ∧
      { boot [] with bp := [0], skipBp := true }.pausePending = false ∧
      { boot [] with bp := [0], skipBp := true }.singleStep = false ∧
      ∃ t, step { boot [] with bp := [0], skipBp := true } = .next t :=
  ⟨.inl rfl, rfl, rfl, rfl, by decide, rfl, rfl, _, rfl⟩
theorem witness_PauseAndRunCalls :
    { waiting with host := [some (.call .pause)] }.host = some (.call .pause) :: [] ∧ waiting.waitInput = true ∧
      (boot []).waitInput = false ∧ { boot [] with engine := .halted, host := [some (.call .run)] }.engine ≠ .running ∧
      { boot [] with engine := .halted, host := [some (.call .run)] }.host = some (.call .run) :: [] ∧
      { boot [] with pausePending := true }.engineMoves ∧ { boot [] with pausePending := true }.engine = .running ∧
      { boot [] with pausePending := true }.pausePending = true :=
  ⟨rfl, rfl, rfl, by decide, rfl, .inl rfl, rfl, rfl⟩
/-- `pause` with no wait and outside Running, and `run` in Running. -/
theorem witness_PauseAndRunCalls_elsewhere :
    { boot [] with host := [some (.call .pause)] }.host = some (.call .pause) :: [] ∧
      { boot [] with host := [some (.call .pause)] }.engine = .running ∧
      { boot [] with engine := .faulted, host := [some (.call .pause)] }.host = some (.call .pause) :: [] ∧
      { boot [] with engine := .faulted, host := [some (.call .pause)] }.engine ≠ .running ∧
      { boot [] with host := [some (.call .run)] }.host = some (.call .run) :: [] ∧
      { boot [] with host := [some (.call .run)] }.engine = .running := by decide
/-- The words at `ip`, in Paused, and a `step_one_instruction`. -/
def single (ip : Word) (words : List Word) : State :=
  { bootAt ip words with engine := .paused, host := [some (.call .stepOneInstruction)] }
theorem witness_StepOneInstructionStepsOnce :
    (∀ ip words, (single ip words).host = some (.call .stepOneInstruction) :: [] ∧ (single ip words).engine = .paused ∧
      (single ip words).waitInput = false) ∧
      decode [21] = .ok (.noop, []) ∧ Instr.noop.wellFormed = true ∧
      ∀ (j : Nat) (h : j < ([21] : List Word).length),
        (single 0 [21]).memRead ((single 0 [21]).ip.toNat + j) = some ([21] : List Word)[j] :=
  ⟨fun _ _ => ⟨rfl, rfl, rfl⟩, by decide, by decide, by decide⟩
/-- The four faults of the decode stage: an unset opcode cell, an unknown opcode, an unset operand cell, an illegal operand word. -/
theorem witness_StepOneInstructionStepsOnce_fault :
    DecodeFault (single 0 []).memRead (single 0 []).ip.toNat [] (.invalidAddress 0) ∧
      DecodeFault (single 0 [22]).memRead (single 0 [22]).ip.toNat [22] .invalidOpcode ∧
      DecodeFault (single 65535 [2]).memRead (single 65535 [2]).ip.toNat [2] (.invalidAddress 65536) ∧
      DecodeFault (single 0 [1, 5]).memRead (single 0 [1, 5]).ip.toNat [1, 5] (.invalidOperand 0) :=
  ⟨.opcodeUnset (by decide), .unknownOpcode 22 (by decide) (by decide),
    .operandUnset 2 .push [] (by decide) (by decide) (by decide) (by decide) (by decide) (by decide),
    .operandIllegal 1 .set [] 5 .w (by decide) (by decide) (by decide) (by decide) (by decide) (by decide) (by decide)⟩
theorem witness_StateAccessIsRefusedWhileRunning :
    { boot [] with host := [some (.call .getIp)] }.host = some (.call .getIp) :: [] ∧ HostCall.getIp.always = false ∧
      (boot []).engine = .running ∧ HostCall.pause.always = true ∧
      { boot [] with host := [some (.call .pause)] }.host = some (.call .pause) :: [] := by decide
theorem witness_InspectionCallContracts : { boot [] with engine := .faulted }.engine ≠ .running ∧ 8 ≤ 8 := by decide

end Sys2Proof.Tests
end

section
/-!
PROOF. The statements of 10_state.md: what an instruction can do, said once (`Effect`), the frames that follow from it, what no
instruction reads, and the invariant of a step.
-/
namespace Sys2Proof.Machine

open Sys2Proof

/-! ## What one instruction can do -/

/-- The tags whose instruction computes a value, writes it to its first operand and does nothing else. -/
def valueTags : List Tag := [.set, .eq, .gt, .add, .mult, .mod, .and, .or, .not, .rMem]

/-- What executing `i` in `s` can come to, over all instructions: the fault it raises, or its commit. -/
inductive Effect (i : Instr) (s : State) : State → Prop where
  | fault (tr : Trap) : Effect i s (s.raise i tr)
  | value (d : Fin 8) (v n : Word) (htag : i.tag ∈ valueTags) (hdst : i.operands.head? = some (.register d)) :
      Effect i s ((s.setReg d v).setIp n)
  | move (n : Word) (htag : i.tag ∈ [Tag.jmp, .jmpIfTrue, .jmpIfFalse, .noop]) : Effect i s (s.setIp n)
  | push (v n : Word) (htag : i.tag ∈ [Tag.push, .call]) (hroom : s.stack.length < s.stackCapacity) :
      Effect i s ((s.pushWord v).setIp n)
  | pop (d : Fin 8) (v n : Word) (hi : i = .pop (.register d)) : Effect i s ((s.dropTop.setReg d v).setIp n)
  | ret (n : Word) (hi : i = .ret) : Effect i s (s.dropTop.setIp n)
  | halt (n : Word) (hi : i = .halt ∨ i = .ret ∧ s.stack = []) : Effect i s ((s.setIp n).setEngine .halted)
  | store (a b : Operand) (va v n : Word) (hi : i = .wMem a b) (ha : s.operandValue a = some va) :
      Effect i s ((s.memWrite va v).setIp n)
  | emit (b : Byte) (n : Word) (htag : i.tag = .out) : Effect i s ((s.emit b).setIp n)
  | deliver (d : Fin 8) (b : Byte) (rest : List Byte) (n : Word) (hi : i = .input (.register d)) :
      Effect i s (s.deliver d n b rest)
  | wait (htag : i.tag = .input) (hib : s.ib = []) (hip : s.ip.toNat + 2 ≤ 65535) : Effect i s s.requestLine
  | line (d : Fin 8) (b : Byte) (rest : List Byte) (n : Word) (hi : i = .input (.register d)) :
      Effect i s (s.requestLine.takeAnswer.deliver d n b rest)
  | eof (htag : i.tag = .input) : Effect i s (s.requestLine.takeAnswer.raise i .inputEOF)

section
variable {i : Instr} {s t : State}

theorem Effect.of_commit {r : Except Trap State} (h : s.commit i r = .next t) (hok : r = .ok t → Effect i s t) :
    Effect i s t := by
  obtain h | ⟨tr, -, rfl⟩ := State.commit_next h
  · exact hok h
  · exact .fault tr

theorem Effect.of_writeUnary {a b : Operand} {f : Word → Except Trap Word} (htag : i.tag ∈ valueTags)
    (hdst : i.operands.head? = some a) (h : s.commit i (s.writeUnary a b f) = .next t) : Effect i s t :=
  .of_commit h fun hok => by
    obtain ⟨d, _, v, rfl, -, -, -, rfl⟩ := State.writeUnary_ok hok
    exact .value d v _ htag hdst

theorem Effect.of_writeBinary {a b c : Operand} {f : Word → Word → Except Trap Word} (htag : i.tag ∈ valueTags)
    (hdst : i.operands.head? = some a) (h : s.commit i (s.writeBinary a b c f) = .next t) : Effect i s t :=
  .of_commit h fun hok => by
    obtain ⟨d, _, _, v, rfl, -, -, -, -, rfl⟩ := State.writeBinary_ok hok
    exact .value d v _ htag hdst

theorem Effect.of_branch {a b : Operand} {p : Word → Bool} (htag : i.tag ∈ [Tag.jmp, .jmpIfTrue, .jmpIfFalse, .noop])
    (h : s.commit i (s.branch a b p) = .next t) : Effect i s t :=
  .of_commit h fun hok => by
    obtain ⟨_, _, -, -, ⟨-, rfl⟩ | ⟨-, -, rfl⟩⟩ := State.branch_ok hok <;> exact .move _ htag

theorem Effect.of_execIn {a : Operand} (h : execIn a s = .next t) : Effect (.input a) s t := by
  obtain ⟨tr, -, rfl⟩ | ⟨d, rfl, hip, ⟨b, rest, -, rfl⟩ | ⟨hib, rfl⟩⟩ := execIn_cases h
  · exact .fault tr
  · exact .deliver d b rest _ rfl
  · obtain ⟨-, hw⟩ | ⟨b, rest, _, -, hl⟩ | he := s.requestLine.receive_cases (.input (.register d)) d
      (BitVec.ofNat 16 (s.ip.toNat + 2))
    · rw [hw]; exact .wait rfl hib hip
    · rw [hl]; exact .line d b rest _ rfl
    · rw [he]; exact .eof rfl

/-- Every instruction's answer is one of the effects. -/
theorem exec_effect (h : exec i s = .next t) : Effect i s t := by
  cases i with
  | set a b => exact .of_writeUnary (by simp [valueTags, Instr.tag]) rfl h
  | not a b => exact .of_writeUnary (by simp [valueTags, Instr.tag]) rfl h
  | rMem a b => exact .of_writeUnary (by simp [valueTags, Instr.tag]) rfl h
  | eq a b c => exact .of_writeBinary (by simp [valueTags, Instr.tag]) rfl h
  | gt a b c => exact .of_writeBinary (by simp [valueTags, Instr.tag]) rfl h
  | add a b c => exact .of_writeBinary (by simp [valueTags, Instr.tag]) rfl h
  | mult a b c => exact .of_writeBinary (by simp [valueTags, Instr.tag]) rfl h
  | mod a b c => exact .of_writeBinary (by simp [valueTags, Instr.tag]) rfl h
  | and a b c => exact .of_writeBinary (by simp [valueTags, Instr.tag]) rfl h
  | or a b c => exact .of_writeBinary (by simp [valueTags, Instr.tag]) rfl h
  | jmpIfTrue a b => exact .of_branch (by simp [Instr.tag]) h
  | jmpIfFalse a b => exact .of_branch (by simp [Instr.tag]) h
  | jmp a =>
    refine .of_commit h fun hok => ?_
    cases hr : s.resolve 0 a with
    | ok va => rw [hr] at hok; cases hok; exact .move va (by simp [Instr.tag])
    | error tr => rw [hr] at hok; cases hok
  | noop =>
    refine .of_commit h fun hok => ?_
    obtain ⟨-, rfl⟩ := State.advance_ok hok
    exact .move _ (by simp [Instr.tag])
  | push a =>
    refine .of_commit h fun hok => ?_
    obtain ⟨va, -, -, hroom, rfl⟩ := State.pushEffect_ok hok
    exact .push va _ (by simp [Instr.tag]) hroom
  | call a =>
    refine .of_commit h fun hok => ?_
    obtain ⟨va, -, -, hroom, rfl⟩ := State.callEffect_ok hok
    exact .push _ va (by simp [Instr.tag]) hroom
  | pop a =>
    refine .of_commit h fun hok => ?_
    obtain ⟨d, v, _, rfl, -, -, rfl⟩ := State.popEffect_ok hok
    exact .pop d v _ rfl
  | ret =>
    refine .of_commit h fun hok => ?_
    obtain ⟨hst, -, rfl⟩ | ⟨v, _, -, rfl⟩ := State.retEffect_ok hok
    · exact .halt _ (.inr ⟨rfl, hst⟩)
    · exact .ret v rfl
  | halt =>
    refine .of_commit h fun hok => ?_
    obtain ⟨-, rfl⟩ := State.haltEffect_ok hok
    exact .halt _ (.inl rfl)
  | wMem a b =>
    refine .of_commit h fun hok => ?_
    obtain ⟨va, vb, ha, -, -, rfl⟩ := State.storeEffect_ok hok
    exact .store a b va vb _ rfl ha
  | out a =>
    refine .of_commit h fun hok => ?_
    obtain ⟨va, -, -, rfl⟩ := State.outEffect_ok hok
    exact .emit _ _ rfl
  | input a => exact .of_execIn h

/-! ## Part by part: what an effect changes -/

/-- The tags whose instruction writes a register. -/
def registerTags : List Tag := [.set, .pop, .eq, .gt, .add, .mult, .mod, .and, .or, .not, .rMem, .input]

theorem mem_registerTags_of_valueTags {g : Tag} (h : g ∈ valueTags) : g ∈ registerTags := by
  revert h; cases g <;> decide

theorem Effect.regs_cases (h : Effect i s t) :
    t.regs = s.regs ∨
      ∃ d v, i.operands.head? = some (.register d) ∧ i.tag ∈ registerTags ∧ t.regs = (s.setReg d v).regs := by
  cases h with
  | value d v n htag hdst => exact .inr ⟨d, v, hdst, mem_registerTags_of_valueTags htag, rfl⟩
  | pop d v n hi => subst hi; exact .inr ⟨d, v, rfl, by simp [Instr.tag, registerTags], rfl⟩
  | deliver d b rest n hi => subst hi; exact .inr ⟨d, zeroExtend b, rfl, by simp [Instr.tag, registerTags], rfl⟩
  | line d b rest n hi =>
    subst hi; exact .inr ⟨d, zeroExtend b, rfl, by simp [Instr.tag, registerTags], by simp [State.deliver]⟩
  | _ => left; simp

/-- A register that is not the first operand of a register-writing instruction is kept. -/
theorem Effect.getReg_eq (h : Effect i s t) {k : Fin 8}
    (hk : i.operands.head? = some (.register k) → i.tag ∉ registerTags) : t.getReg k = s.getReg k := by
  obtain hr | ⟨d, v, hdst, htag, hr⟩ := h.regs_cases
  · exact State.getReg_congr hr k
  · have hne : d ≠ k := fun e => hk (e ▸ hdst) htag
    rw [State.getReg_congr hr k, State.getReg_setReg_ne s v hne]

theorem Effect.stack_cases (h : Effect i s t) :
    t.stack = s.stack ∨
      (i.tag ∈ [Tag.push, .call] ∧ s.stack.length < s.stackCapacity ∧ ∃ v, t.stack = v :: s.stack) ∨
      (i.tag ∈ [Tag.pop, .ret] ∧ t.stack = s.stack.tail) := by
  cases h with
  | push v n htag hroom => exact .inr (.inl ⟨htag, hroom, v, rfl⟩)
  | pop d v n hi => subst hi; exact .inr (.inr ⟨by simp [Instr.tag], rfl⟩)
  | ret n hi => subst hi; exact .inr (.inr ⟨by simp [Instr.tag], rfl⟩)
  | _ => left; simp [State.deliver]

theorem Effect.mem_cases (h : Effect i s t) :
    t.mem = s.mem ∨
      ∃ a b va v, i = .wMem a b ∧ s.operandValue a = some va ∧ t.mem = s.mem.write va.toNat v := by
  cases h with
  | store a b va v n hi ha => exact .inr ⟨a, b, va, v, hi, ha, rfl⟩
  | _ => left; simp [State.deliver]

theorem Effect.mem_eq (h : Effect i s t) (htag : i.tag ≠ .wMem) : t.mem = s.mem := by
  obtain hm | ⟨a, b, _, _, rfl, -, -⟩ := h.mem_cases
  · exact hm
  · exact absurd rfl htag

theorem Effect.output_cases (h : Effect i s t) :
    t.output = s.output ∨ i.tag = .out ∧ ∃ b, t.output = s.output ++ [b] := by
  cases h with
  | emit b n htag => exact .inr ⟨htag, b, rfl⟩
  | _ => left; simp [State.deliver]

theorem Effect.inputSide_eq (h : Effect i s t) (htag : i.tag ≠ .input) :
    t.ib = s.ib ∧ t.lineRequests = s.lineRequests ∧ t.answers = s.answers := by
  cases h with
  | deliver d b rest n hi => subst hi; exact absurd rfl htag
  | wait hi => exact absurd hi htag
  | line d b rest n hi => subst hi; exact absurd rfl htag
  | eof hi => exact absurd hi htag
  | _ => exact ⟨rfl, rfl, rfl⟩

theorem Effect.samePorts (h : Effect i s t) (hin : i.tag ≠ .input) (hout : i.tag ≠ .out) : s.SamePorts t := by
  obtain ⟨hib, hreq, hans⟩ := h.inputSide_eq hin
  obtain hkept | ⟨hi, -⟩ := h.output_cases
  · exact ⟨hkept, hib, hreq, hans⟩
  · exact absurd hi hout

theorem Effect.sameHostSide (h : Effect i s t) : s.SameHostSide t := by
  cases h <;> constructor <;> simp [State.deliver]

theorem Trap.fetched_ne_nil (tr : Trap) (i : Instr) : tr.fetched i ≠ [] := by
  cases tr <;> simp [Trap.fetched, encode]

/-- A fault an instruction raises is entered with its opcode word in the record. -/
theorem State.faultEntered_raise (s : State) (i : Instr) (tr : Trap) : s.FaultEntered (s.raise i tr) :=
  ⟨rfl, rfl, rfl, by simp [faultRecord, Trap.fetched_ne_nil], rfl, rfl, rfl, rfl⟩

/-- STATUS and the fault record change by a fault, by a halt, and by the wait of an `In` alone. -/
theorem Effect.status_cases (h : Effect i s t) (htag : i.tag ≠ .input) :
    s.SameStatus t ∨ s.FaultEntered t ∨
      (i = .halt ∨ i = .ret) ∧ t.engine = .halted ∧ t.waitInput = s.waitInput ∧ t.fault = s.fault := by
  cases h with
  | fault tr => exact .inr (.inl (s.faultEntered_raise i tr))
  | halt n hi => exact .inr (.inr ⟨hi.imp_right And.left, rfl, rfl, rfl⟩)
  | deliver d b rest n hi => subst hi; exact absurd rfl htag
  | wait hi => exact absurd hi htag
  | line d b rest n hi => subst hi; exact absurd rfl htag
  | eof hi => exact absurd hi htag
  | _ => exact .inl ⟨rfl, rfl, rfl⟩

end

/-! ## The frames -/

/-- The instructions that write a value touch neither the stack, memory, a port nor the engine's state. -/
theorem not_mem_of_valueTags {g : Tag} (h : g ∈ valueTags) :
    g ∉ [Tag.push, .pop, .call, .ret, .halt, .wMem, .out, .input] := by
  revert h; cases g <;> decide

/-- Settles O42: an instruction that writes a value has no effect but that write and a fault. -/
theorem registerWritersFrame : Obligations.RegisterWritersFrame := by
  intro a b c i s t hi hexec
  have he := exec_effect hexec
  obtain ⟨htag, hhead⟩ : i.tag ∈ valueTags ∧ i.operands.head? = some a := by
    simp only [List.mem_cons, List.not_mem_nil, or_false] at hi
    rcases hi with rfl | rfl | rfl | rfl | rfl | rfl | rfl | rfl | rfl | rfl <;>
      exact ⟨by simp [valueTags, Instr.tag], rfl⟩
  have hnot := not_mem_of_valueTags htag
  simp only [List.mem_cons, List.not_mem_nil, or_false, not_or] at hnot
  obtain ⟨hpush, hpop, hcall, hret, hhalt, hmem, hout, hin⟩ := hnot
  refine ⟨fun k hk => he.getReg_eq fun hd => ?_, fun x => by rw [he.mem_eq hmem], ?_, he.sameHostSide,
    he.samePorts hin hout, ?_⟩
  · exact absurd (Option.some.inj (hhead.symm.trans hd)) hk
  · obtain hst | ⟨hg, -⟩ | ⟨hg, -⟩ := he.stack_cases
    · exact hst
    · simp [hpush, hcall] at hg
    · simp [hpop, hret] at hg
  · obtain hsame | hfault | ⟨rfl | rfl, -⟩ := he.status_cases hin
    · exact .inl hsame
    · exact .inr hfault
    · exact absurd rfl hhalt
    · exact absurd rfl hret

/-- Settles O43: among the stack and control instructions only Pop writes a register, only Push, Call, Pop and Ret change the
stack, and only Halt and Ret halt. -/
theorem stackAndControlFrame : Obligations.StackAndControlFrame := by
  intro a b i s t hi hexec
  have he := exec_effect hexec
  simp only [List.mem_cons, List.not_mem_nil, or_false] at hi
  obtain ⟨hin, hout, hmem, hwrites, hpushes, hpops⟩ : i.tag ≠ .input ∧ i.tag ≠ .out ∧ i.tag ≠ .wMem ∧
      (i.tag ∈ registerTags → i = .pop a) ∧ (i.tag ∈ [Tag.push, .call] → i = .push a ∨ i = .call a) ∧
      (i.tag ∈ [Tag.pop, .ret] → i = .pop a ∨ i = .ret) := by
    rcases hi with rfl | rfl | rfl | rfl | rfl | rfl | rfl | rfl | rfl <;> simp [registerTags, Instr.tag]
  refine ⟨fun k hk => he.getReg_eq fun hd hg => ?_, fun x => by rw [he.mem_eq hmem], he.sameHostSide,
    he.samePorts hin hout, ?_, ?_, ?_, he.status_cases hin⟩
  · obtain rfl := hwrites hg
    exact hk (congrArg Instr.pop (Option.some.inj hd))
  · intro hpush
    obtain hst | ⟨-, -, v, hst⟩ | ⟨hg, -⟩ := he.stack_cases
    · exact .inl hst
    · exact .inr (by rw [hst, List.tail_cons])
    · rcases hpush with rfl | rfl <;> simp [Instr.tag] at hg
  · intro hpop
    obtain hst | ⟨hg, -⟩ | ⟨-, hst⟩ := he.stack_cases
    · exact .inl hst
    · rcases hpop with rfl | rfl <;> simp [Instr.tag] at hg
    · exact .inr hst
  · intro hnpush hncall hnpop hnret
    obtain hst | ⟨hg, -⟩ | ⟨hg, -⟩ := he.stack_cases
    · exact hst
    · exact ((hpushes hg).elim hnpush hncall).elim
    · exact ((hpops hg).elim hnpop hnret).elim

/-- Settles O46: each part of the state, by the effects that change it. -/
theorem onlyItsOwnInstructionsChangeEachPart : Obligations.OnlyItsOwnInstructionsChangeEachPart := by
  intro i s t hexec
  have he := exec_effect hexec
  refine ⟨fun k hne => ?_, fun hne => ?_, fun hne => ?_, fun hne => ?_, fun hne => ?_, he.sameHostSide⟩
  · by_contra hnot
    exact hne (he.getReg_eq fun hd hg => hnot ⟨hd, hg⟩)
  · obtain hst | ⟨hg, -⟩ | ⟨hg, -⟩ := he.stack_cases
    · exact absurd hst hne
    · exact List.Sublist.mem hg (by decide)
    · exact List.Sublist.mem hg (by decide)
  · by_contra hnot
    exact hne (he.mem_eq hnot)
  · exact he.output_cases.resolve_left hne
  · by_contra hnot
    obtain ⟨hib, hreq, hans⟩ := he.inputSide_eq hnot
    exact hne.elim (· hib) (·.elim (· hreq) (· hans))

/-! ## What no instruction reads -/

/-- The state as the instructions see it: STATUS, the fault record, BP, SKIP_BP and the count of line requests at fixed values. -/
def State.unseen (s : State) : State :=
  { s with engine := .running, waitInput := false, fault := .zero, bp := [], skipBp := false, lineRequests := 0 }

@[simp] theorem State.unseen_stack (s : State) : s.unseen.stack = s.stack := rfl

/-- Two meanings that fault alike, or come to the same state as the instructions see it. -/
def SameSeen (r r' : Except Trap State) : Prop := r.map State.unseen = r'.map State.unseen

theorem SameSeen.ok {y y' : State} (h : y.unseen = y'.unseen) : SameSeen (.ok y) (.ok y') := congrArg Except.ok h

theorem SameSeen.bind {α : Type} (x : Except Trap α) {f f' : α → Except Trap State} (h : ∀ a, SameSeen (f a) (f' a)) :
    SameSeen (x >>= f) (x >>= f') := by
  cases x with
  | ok a => exact h a
  | error tr => rfl

theorem SameSeen.bindState {x x' : Except Trap State} {f : State → Except Trap State} (hx : SameSeen x x')
    (hf : ∀ {y y' : State}, y.unseen = y'.unseen → SameSeen (f y) (f y')) : SameSeen (x >>= f) (x' >>= f) := by
  cases x with
  | ok y =>
    cases x' with
    | ok y' => exact hf (Except.ok.inj hx)
    | error tr => cases hx
  | error tr =>
    cases x' with
    | ok y' => cases hx
    | error tr' => cases Except.error.inj hx; rfl

theorem SameSeen.commit {r r' : Except Trap State} {s t : State} {i : Instr} (hr : SameSeen r r')
    (h : s.commit i r = .next t) : ∃ u, s.unseen.commit i r' = .next u ∧ u.unseen = t.unseen := by
  cases r with
  | ok x =>
    cases r' with
    | ok y => cases h; exact ⟨y, rfl, (Except.ok.inj hr).symm⟩
    | error tr => cases hr
  | error tr =>
    cases r' with
    | ok y => cases hr
    | error tr' => cases Except.error.inj hr; cases h; exact ⟨_, rfl, rfl⟩

section
variable (s : State)

theorem State.writeUnary_unseen (a b : Operand) (f : Word → Except Trap Word) :
    SameSeen (s.writeUnary a b f) (s.unseen.writeUnary a b f) :=
  .bind _ fun _ => .bind (s.resolve 1 b) fun _ => .bind (s.successor 2) fun _ => .bind _ fun _ => rfl

theorem State.writeBinary_unseen (a b c : Operand) (f : Word → Word → Except Trap Word) :
    SameSeen (s.writeBinary a b c f) (s.unseen.writeBinary a b c f) :=
  .bind _ fun _ => .bind (s.resolve 1 b) fun _ => .bind (s.resolve 2 c) fun _ => .bind (s.successor 3) fun _ =>
    .bind _ fun _ => rfl

theorem State.pushChecked_unseen (v : Word) : SameSeen (s.pushChecked v) (s.unseen.pushChecked v) := by
  unfold State.pushChecked
  by_cases hfull : s.stackCapacity ≤ s.stack.length
  · rw [if_pos hfull, if_pos (show s.unseen.stackCapacity ≤ s.unseen.stack.length from hfull)]; rfl
  · rw [if_neg hfull, if_neg (show ¬s.unseen.stackCapacity ≤ s.unseen.stack.length from hfull)]; rfl

theorem State.pushEffect_unseen (a : Operand) : SameSeen (s.pushEffect a) (s.unseen.pushEffect a) :=
  .bind (s.resolve 0 a) fun va => .bind (s.successor 1) fun n => .bindState (s.pushChecked_unseen va) fun h =>
    .ok (congrArg (·.setIp n) h :)

theorem State.callEffect_unseen (a : Operand) : SameSeen (s.callEffect a) (s.unseen.callEffect a) :=
  .bind (s.resolve 0 a) fun va => .bind (s.successor 1) fun n => .bindState (s.pushChecked_unseen n) fun h =>
    .ok (congrArg (·.setIp va) h :)

theorem State.popEffect_unseen (a : Operand) : SameSeen (s.popEffect a) (s.unseen.popEffect a) :=
  .bind (dstReg 0 a) fun d => .bind (s.successor 1) fun n => by
    rw [State.unseen_stack]
    cases s.stack <;> rfl

theorem State.jump_unseen (a : Operand) :
    SameSeen (do let va ← s.resolve 0 a; .ok (s.setIp va)) (do let va ← s.unseen.resolve 0 a; .ok (s.unseen.setIp va)) :=
  .bind (s.resolve 0 a) fun _ => rfl

theorem State.branch_unseen (a b : Operand) (p : Word → Bool) : SameSeen (s.branch a b p) (s.unseen.branch a b p) :=
  .bind (s.resolve 0 a) fun va => .bind (s.resolve 1 b) fun vb => by
    cases p va
    · exact .bind (s.successor 2) fun _ => rfl
    · rfl

theorem State.advance_unseen : SameSeen s.advance s.unseen.advance := .bind (s.successor 0) fun _ => rfl

theorem State.haltEffect_unseen : SameSeen s.haltEffect s.unseen.haltEffect :=
  .bindState s.advance_unseen fun h => .ok h

theorem State.retEffect_unseen : SameSeen s.retEffect s.unseen.retEffect := by
  unfold State.retEffect
  rw [State.unseen_stack]
  cases s.stack with
  | nil => exact s.haltEffect_unseen
  | cons v rest => rfl

theorem State.storeEffect_unseen (a b : Operand) : SameSeen (s.storeEffect a b) (s.unseen.storeEffect a b) :=
  .bind (s.resolve 0 a) fun _ => .bind (s.resolve 1 b) fun _ => .bind (s.successor 2) fun _ => rfl

theorem State.outEffect_unseen (a : Operand) : SameSeen (s.outEffect a) (s.unseen.outEffect a) :=
  .bind (s.resolve 0 a) fun _ => .bind (s.successor 1) fun _ => rfl

theorem State.requestLine_unseen : s.unseen.requestLine.unseen = s.requestLine.unseen := by
  unfold State.requestLine
  split <;> split <;> rfl

end

theorem State.receive_unseen {s u : State} (h : u.unseen = s.unseen) (i : Instr) (d : Fin 8) (n : Word) :
    (u.receive i d n).unseen = (s.receive i d n).unseen := by
  have hans : u.answers = s.answers := (congrArg State.answers h :)
  unfold State.receive
  rw [hans]
  rcases s.answers with _ | ⟨⟨_ | ⟨b, rest⟩⟩ | _, more⟩
  · exact h
  · exact congrArg (fun x => (x.takeAnswer.raise i .inputEOF).unseen) h
  · exact congrArg (fun x => (x.takeAnswer.deliver d n b rest).unseen) h
  · exact congrArg (fun x => (x.takeAnswer.raise i .inputEOF).unseen) h

theorem execIn_unseen {s t : State} {a : Operand} (h : execIn a s = .next t) :
    ∃ u, execIn a s.unseen = .next u ∧ u.unseen = t.unseen := by
  have htarget : s.unseen.inputTarget a = s.inputTarget a := rfl
  have hib : s.unseen.ib = s.ib := rfl
  unfold execIn at h ⊢
  rw [htarget, hib]
  revert h
  rcases s.inputTarget a with tr | ⟨d, n⟩
  · rintro ⟨⟩; exact ⟨_, rfl, rfl⟩
  · rcases s.ib with _ | ⟨b, rest⟩
    · rintro ⟨⟩; exact ⟨_, rfl, State.receive_unseen s.requestLine_unseen _ d n⟩
    · rintro ⟨⟩; exact ⟨_, rfl, rfl⟩

/-- An instruction run where what it cannot see is at its fixed values comes to the same state as it sees it. -/
theorem exec_unseen {i : Instr} {s t : State} (h : exec i s = .next t) :
    ∃ u, exec i s.unseen = .next u ∧ u.unseen = t.unseen := by
  cases i with
  | set a b => exact (s.writeUnary_unseen a b _).commit h
  | not a b => exact (s.writeUnary_unseen a b _).commit h
  | rMem a b => exact (s.writeUnary_unseen a b _).commit h
  | eq a b c => exact (s.writeBinary_unseen a b c _).commit h
  | gt a b c => exact (s.writeBinary_unseen a b c _).commit h
  | add a b c => exact (s.writeBinary_unseen a b c _).commit h
  | mult a b c => exact (s.writeBinary_unseen a b c _).commit h
  | mod a b c => exact (s.writeBinary_unseen a b c _).commit h
  | and a b c => exact (s.writeBinary_unseen a b c _).commit h
  | or a b c => exact (s.writeBinary_unseen a b c _).commit h
  | jmpIfTrue a b => exact (s.branch_unseen a b _).commit h
  | jmpIfFalse a b => exact (s.branch_unseen a b _).commit h
  | jmp a => exact (s.jump_unseen a).commit h
  | noop => exact s.advance_unseen.commit h
  | push a => exact (s.pushEffect_unseen a).commit h
  | call a => exact (s.callEffect_unseen a).commit h
  | pop a => exact (s.popEffect_unseen a).commit h
  | ret => exact s.retEffect_unseen.commit h
  | halt => exact s.haltEffect_unseen.commit h
  | wMem a b => exact (s.storeEffect_unseen a b).commit h
  | out a => exact (s.outEffect_unseen a).commit h
  | input a => exact execIn_unseen h

/-- Two states an instruction sees alike come to states it sees alike. -/
theorem exec_unseen_congr {i : Instr} {s s' t u : State} (hs : s'.unseen = s.unseen) (ht : exec i s = .next t)
    (hu : exec i s' = .next u) : u.unseen = t.unseen := by
  obtain ⟨x, hx, hxt⟩ := exec_unseen ht
  obtain ⟨y, hy, hyu⟩ := exec_unseen hu
  rw [hs, hx] at hy
  cases hy
  exact hyu.symm.trans hxt

theorem State.receive_lineRequests (s : State) (i : Instr) (d : Fin 8) (n : Word) :
    (s.receive i d n).lineRequests = s.lineRequests := by
  obtain ⟨-, hw⟩ | ⟨b, rest, _, -, hl⟩ | he := s.receive_cases i d n
  · rw [hw]
  · rw [hl]; rfl
  · rw [he]; rfl

/-- An `In` makes one line request when it passes its decode stage, finds IB empty and no request is outstanding (46_io.md R271,
R280), and none otherwise. -/
theorem execIn_lineRequests {s t : State} {a : Operand} (h : execIn a s = .next t) :
    t.lineRequests = if s.waitInput = false ∧ s.ib = [] ∧ (s.inputTarget a).isOk then s.lineRequests + 1
      else s.lineRequests := by
  unfold execIn at h
  revert h
  rcases s.inputTarget a with tr | ⟨d, n⟩
  · rintro ⟨⟩; simp [Except.isOk, Except.toBool]
  · rcases s.ib with _ | ⟨b, rest⟩
    · rintro ⟨⟩; cases hw : s.waitInput <;> simp [State.receive_lineRequests, hw, Except.isOk, Except.toBool]
    · rintro ⟨⟩; simp [State.deliver]

/-- Settles O47: what an instruction comes to does not depend on what it cannot see, and its line requests on WAIT_INPUT alone. -/
theorem noInstructionReadsStatusOrDebugState : Obligations.NoInstructionReadsStatusOrDebugState := by
  intro i s t e w f bp skip ht
  obtain ⟨u, hu⟩ := exec_next i { s with engine := e, waitInput := w, fault := f, bp := bp, skipBp := skip }
  have hseen : u.unseen = t.unseen := exec_unseen_congr (by rfl) ht hu
  refine ⟨u, hu, (congrArg State.regs hseen :), (congrArg State.ip hseen :), (congrArg State.stack hseen :),
    (congrArg State.mem hseen :), (congrArg State.ib hseen :), (congrArg State.output hseen :),
    (congrArg State.answers hseen :), ?_⟩
  by_cases hin : i.tag = .input
  · obtain ⟨a, rfl⟩ : ∃ a, i = .input a := by cases i <;> simp [Instr.tag] at hin; exact ⟨_, rfl⟩
    rw [execIn_lineRequests ht, execIn_lineRequests hu]
    constructor
    · rintro (hne | rfl)
      · exact absurd rfl hne
      · rfl
    · rintro rfl
      exact if_neg (by simp)
  · have hreqt := ((exec_effect ht).inputSide_eq hin).2.1
    have hrequ := ((exec_effect hu).inputSide_eq hin).2.1
    exact ⟨fun _ => hrequ.trans hreqt.symm, fun _ => hrequ⟩

/-! ## STATUS -/

theorem EngineState.code_lt (e : EngineState) : e.code < 4 := by cases e <;> decide

theorem State.status_toNat (s : State) : s.status.toNat = s.engine.code + if s.waitInput then 4 else 0 := by
  have := s.engine.code_lt
  rw [State.status, BitVec.toNat_ofNat, Nat.mod_eq_of_lt]
  split <;> omega

theorem State.status_mod_four (s : State) : s.status.toNat % 4 = s.engine.code := by
  have := s.engine.code_lt
  rw [s.status_toNat]
  split <;> omega

theorem State.status_lt (s : State) : s.status.toNat < 2 ^ 3 := by
  have := s.engine.code_lt
  rw [s.status_toNat]
  split <;> omega

/-- Settles O55: STATUS is the engine's code, plus 4 for WAIT_INPUT. -/
theorem statusWordFields : Obligations.StatusWordFields := by
  intro s
  have hcode : ∀ e, s.engine = e → s.status.toNat % 4 = e.code := fun e he => he ▸ s.status_mod_four
  refine ⟨hcode .running, hcode .paused, hcode .halted, hcode .faulted, ?_, fun j hj => ?_⟩
  · unfold State.status
    cases s.engine <;> cases s.waitInput <;> rfl
  · exact Nat.testBit_lt_two_pow (s.status_lt.trans_le (Nat.pow_le_pow_right (by decide) hj))

/-! ## The invariant: its clauses about data -/

/-- The clauses of `State.Inv` that hold whatever the engine is doing. -/
structure State.DataInv (s : State) : Prop where
  mem_wf : s.mem.wf = true
  capacity_pos : 1 ≤ s.stackCapacity
  depth_le : s.stack.length ≤ s.stackCapacity
  record_wf : s.fault.Wf
  bp_rising : risingAddresses 0 s.bp = true

section
variable {s t : State}

theorem State.Inv.data (h : s.Inv) : s.DataInv := { h with }

/-- A fault record made from at most the four words of the longest instruction is well formed. -/
theorem faultRecord_wf (ip : Word) {ws : List Word} (tr : Trap) (hlen : ws.length ≤ 4) : (faultRecord ip ws tr).Wf := by
  have hnops : (faultRecord ip ws tr).fnops.toNat = ws.length - 1 := by
    simp only [faultRecord, BitVec.toNat_ofNat]
    omega
  have hword : ∀ k, ws.length - 1 ≤ k → ws.getD (k + 1) 0 = 0 := fun k hk => List.getD_eq_default _ _ (by omega)
  refine ⟨fun hv => ?_, fun hk => ?_, fun hk => ?_, fun hk => ?_, ?_, ?_, ?_⟩
  · have hnil : ws = [] := by
      by_contra hne
      simp [faultRecord, hne] at hv
    subst hnil
    exact ⟨rfl, rfl⟩
  · exact hword 0 (hnops ▸ hk)
  · exact hword 1 (hnops ▸ hk)
  · exact hword 2 (hnops ▸ hk)
  · cases tr <;> simp [faultRecord, Trap.faddr, Trap.cause, Cause.code]
  · cases tr <;> simp [faultRecord, Trap.fopk, Trap.cause, Cause.code]
  · cases tr <;> simp [faultRecord, Trap.cause, Cause.code]

theorem encode_length_le (i : Instr) : (encode i).length ≤ 4 := by
  have := i.tag.arity_le
  rw [encode_length]
  omega

theorem Trap.fetched_length_le (tr : Trap) (i : Instr) : (tr.fetched i).length ≤ 4 := by
  have := encode_length_le i
  cases tr <;> simp only [Trap.fetched, List.length_take] <;> omega

theorem Effect.fault_cases {i : Instr} (h : Effect i s t) :
    t.fault = s.fault ∨ ∃ tr, t.fault = faultRecord s.ip (tr.fetched i) tr := by
  cases h with
  | fault tr => exact .inr ⟨tr, rfl⟩
  | eof => exact .inr ⟨.inputEOF, by simp⟩
  | _ => left; simp [State.deliver]

theorem Effect.keeps_data {i : Instr} (he : Effect i s t) (h : s.DataInv) : t.DataInv := by
  have hside := he.sameHostSide
  refine ⟨?_, ?_, ?_, ?_, ?_⟩
  · obtain hm | ⟨_, _, va, v, -, -, hm⟩ := he.mem_cases
    · rw [hm]; exact h.mem_wf
    · rw [hm]; exact State.memWrite_wf h.mem_wf va v
  · rw [hside.stackCapacity]; exact h.capacity_pos
  · have hdepth := h.depth_le
    rw [hside.stackCapacity]
    obtain hst | ⟨-, hroom, v, hst⟩ | ⟨-, hst⟩ := he.stack_cases
    · rw [hst]; exact hdepth
    · rw [hst, List.length_cons]; exact hroom
    · rw [hst, List.length_tail]; omega
  · obtain hf | ⟨tr, hf⟩ := he.fault_cases
    · rw [hf]; exact h.record_wf
    · rw [hf]; exact faultRecord_wf s.ip tr (tr.fetched_length_le i)
  · rw [hside.bp]; exact h.bp_rising

theorem State.fetch_error_length_le {f : FetchFault} (h : s.fetch = .error f) : f.words.length ≤ 4 := by
  unfold State.fetch at h
  split at h
  · cases h; simp
  · split at h
    · cases h; simp
    · rename_i g _
      have harity : g.kinds.length ≤ 3 := g.arity_le
      obtain ⟨os, hlen, -, ⟨rfl, -⟩ | ⟨w, -, rfl⟩⟩ := State.fetchOperands_error h <;>
        simp only [List.length_append, List.length_cons, List.length_nil] <;> omega

theorem State.DataInv.enterFault (h : s.DataInv) {ws : List Word} (tr : Trap) (hlen : ws.length ≤ 4) :
    (s.enterFault ws tr).DataInv :=
  { h with record_wf := faultRecord_wf s.ip tr hlen }

/-! ## The invariant: an `In` that waits -/

theorem State.atIn_congr (hm : t.mem = s.mem) (hr : t.regs = s.regs) (hi : t.ip = s.ip) (h : s.atIn) : t.atIn := by
  unfold State.atIn
  rw [State.fetch_congr hm hr hi, hi]
  exact h

/-- The words fetched decode to an `In` exactly when they are the opcode word 20 and one more. -/
theorem decode_input_iff {ws : List Word} {i : Instr} (h : decode ws = .ok (i, [])) :
    i.tag = .input ↔ ∃ w, ws = [20, w] := by
  constructor
  · intro hi
    cases ws with
    | nil => cases h
    | cons op ws =>
      simp only [decode] at h
      split at h
      · cases h
      · rename_i g hg
        obtain ⟨htag, os, -, hlen, rfl⟩ := decodeTag_ok h
        obtain rfl : g = .input := htag.symm.trans hi
        obtain ⟨w, rfl⟩ := List.length_eq_one_iff.1 hlen
        exact ⟨w, by rw [← Tag.value_of_ofWord hg]; rfl⟩
  · rintro ⟨w, rfl⟩
    obtain rfl : Instr.input (.ofWord w) = i := congrArg Prod.fst (Except.ok.inj h)
    rfl

/-- After an instruction WAIT_INPUT is 1 only by an `In` that asked for a line, or because it was 1 before something else ran. -/
theorem Effect.waits {i : Instr} (h : Effect i s t) (hw : t.waitInput = true) :
    (i.tag ≠ .input ∧ s.waitInput = true) ∨
      (i.tag = .input ∧ s.ib = [] ∧ s.ip.toNat + 2 ≤ 65535 ∧ t = s.requestLine) := by
  cases h with
  | wait htag hib hip => exact .inr ⟨htag, hib, hip, rfl⟩
  | fault tr => cases hw
  | deliver d b rest n hi => cases hw
  | line d b rest n hi => cases hw
  | eof htag => cases hw
  | value d v n htag => exact .inl ⟨fun e => by simp [e, valueTags] at htag, hw⟩
  | move n htag => exact .inl ⟨fun e => by simp [e] at htag, hw⟩
  | push v n htag => exact .inl ⟨fun e => by simp [e] at htag, hw⟩
  | pop d v n hi => exact .inl ⟨by simp [hi, Instr.tag], hw⟩
  | ret n hi => exact .inl ⟨by simp [hi, Instr.tag], hw⟩
  | halt n hi => exact .inl ⟨by rcases hi with rfl | ⟨rfl, -⟩ <;> simp [Instr.tag], hw⟩
  | store a b va v n hi => exact .inl ⟨by simp [hi, Instr.tag], hw⟩
  | emit b n htag => exact .inl ⟨by simp [htag], hw⟩

/-! ## The invariant: one whole instruction -/

/-- A whole step is a fault of the fetch, with at most four words, or an effect of the instruction the words at IP decode to. -/
theorem State.runInstruction_effect (h : s.runInstruction = .next t) :
    (∃ ws tr, ws.length ≤ 4 ∧ t = s.enterFault ws tr) ∨
      ∃ ws i, s.fetch = .ok ws ∧ decode ws = .ok (i, []) ∧ Effect i s t := by
  obtain ⟨f, hf, hr⟩ | ⟨ws, i, hf, hd, hr⟩ := s.runInstruction_cases
  · rw [hr] at h
    cases h
    exact .inl ⟨f.words, f.trap, State.fetch_error_length_le hf, rfl⟩
  · exact .inr ⟨ws, i, hf, hd, exec_effect (hr.symm.trans h)⟩

theorem State.runInstruction_keeps_data (hr : s.runInstruction = .next t) (h : s.DataInv) : t.DataInv := by
  obtain ⟨ws, tr, hlen, rfl⟩ | ⟨_, _, -, -, he⟩ := State.runInstruction_effect hr
  · exact h.enterFault tr hlen
  · exact he.keeps_data h

theorem State.runInstruction_sameHostSide (hr : s.runInstruction = .next t) : s.SameHostSide t := by
  obtain ⟨ws, tr, -, rfl⟩ | ⟨_, _, -, -, he⟩ := State.runInstruction_effect hr
  · exact ⟨rfl, rfl, rfl, rfl, rfl, rfl, rfl⟩
  · exact he.sameHostSide

/-- Where a wait is at an `In` before a whole step, it is after: that `In` has done nothing but ask for a line. -/
theorem State.runInstruction_waits (hat : s.waitInput = true → s.atIn) (hr : s.runInstruction = .next t)
    (hw : t.waitInput = true) : t.engine = s.engine ∧ t.ib = [] ∧ t.atIn := by
  obtain ⟨ws, tr, -, rfl⟩ | ⟨ws, i, hf, hd, he⟩ := State.runInstruction_effect hr
  · cases hw
  · obtain ⟨hnot, hws⟩ | ⟨htag, hib, hip, rfl⟩ := he.waits hw
    · obtain ⟨⟨w, hin⟩, -⟩ := hat hws
      exact absurd ((decode_input_iff hd).2 ⟨w, Except.ok.inj (hf.symm.trans hin)⟩) hnot
    · obtain ⟨w, rfl⟩ := (decode_input_iff hd).1 htag
      exact ⟨by simp, by simpa using hib, State.atIn_congr (by simp) (by simp) (by simp) ⟨⟨w, hf⟩, hip⟩⟩

/-! ## The invariant: the updates of the engine and the host -/

/-- With no `In` waiting, the clauses about the wait ask for nothing. -/
theorem State.DataInv.inv_of_notWaiting (h : s.DataInv) (hw : s.waitInput = false)
    (hp : s.pausePending = true → s.engine = .running) (hs : s.singleStep = false) : s.Inv :=
  { h with
    wait_running := by simp [hw]
    wait_ib := by simp [hw]
    wait_at_in := by simp [hw]
    pause_running := fun hpause => ⟨hp hpause, hw⟩
    single_waits := by simp [hs] }

/-- The invariant does not speak of the host's list, SKIP_BP, the answers and the replies. -/
theorem State.Inv.withHostSide (h : s.Inv) (host : List (Option HostAction)) (skip : Bool) (answers : List Answer)
    (replies : List HostReply) : { s with host := host, skipBp := skip, answers := answers, replies := replies }.Inv :=
  { h with wait_at_in := fun hw => State.atIn_congr (s := s) rfl rfl rfl (h.wait_at_in hw) }

theorem State.Inv.notWaiting (h : s.Inv) (he : s.engine ≠ .running) : s.waitInput = false :=
  Bool.eq_false_iff.2 fun hw => he (h.wait_running hw)

theorem State.Inv.noPause (h : s.Inv) (he : s.engine ≠ .running) : s.pausePending = false :=
  Bool.eq_false_iff.2 fun hp => he (h.pause_running hp).1

theorem State.Inv.noPause_of_waiting (h : s.Inv) (hw : s.waitInput = true) : s.pausePending = false :=
  Bool.eq_false_iff.2 fun hp => by rw [(h.pause_running hp).2] at hw; cases hw

theorem State.Inv.noSingleStep (h : s.Inv) (hw : s.waitInput = false) : s.singleStep = false :=
  Bool.eq_false_iff.2 fun hs => by simp [h.single_waits hs] at hw

/-- The end of a single step makes a state legal in which the single step alone may be unfinished. -/
theorem State.DataInv.settle_inv (h : s.DataInv) (hp : s.pausePending = false)
    (hw : s.waitInput = true → s.engine = .running ∧ s.ib = [] ∧ s.atIn) : s.settle.Inv := by
  unfold State.settle
  split
  · rename_i hend
    have hnot : s.waitInput = false := by simpa using (Bool.and_eq_true_iff.1 hend).2
    exact State.DataInv.inv_of_notWaiting { h with } hnot (by simp [hp]) rfl
  · rename_i hend
    exact
      { h with
        wait_running := fun hwait => (hw hwait).1
        wait_ib := fun hwait => (hw hwait).2.1
        wait_at_in := fun hwait => (hw hwait).2.2
        pause_running := by simp [hp]
        single_waits := by simpa using hend }

/-- A whole step with its end, from a Running state that is legal but for an unfinished single step, with no pause pending. -/
theorem State.runInstruction_settle_inv (h : s.DataInv) (hrun : s.engine = .running) (hat : s.waitInput = true → s.atIn)
    (hp : s.pausePending = false) (hr : settleResult s.runInstruction = .next t) : t.Inv := by
  obtain ⟨u, hu⟩ := s.runInstruction_next
  rw [hu] at hr
  cases hr
  refine (State.runInstruction_keeps_data hu h).settle_inv ?_ fun hw => ?_
  · rw [(State.runInstruction_sameHostSide hu).pausePending, hp]
  · obtain ⟨hengine, hib, hat'⟩ := State.runInstruction_waits hat hu hw
    exact ⟨hengine.trans hrun, hib, hat'⟩

theorem State.Inv.settle_runInstruction (h : s.Inv) (hrun : s.engine = .running) (hp : s.pausePending = false)
    (hr : settleResult s.runInstruction = .next t) : t.Inv :=
  State.runInstruction_settle_inv h.data hrun h.wait_at_in hp hr

theorem State.Inv.enterPaused (h : s.Inv) (hw : s.waitInput = false) : s.enterPaused.Inv :=
  State.DataInv.inv_of_notWaiting { h with } hw (fun hp => by cases hp) (h.noSingleStep hw)

theorem State.Inv.boundary (h : s.Inv) (hrun : s.engine = .running) (hw : s.waitInput = false)
    (hr : s.boundary = .next t) : t.Inv := by
  have hskip : { s with skipBp := false }.Inv := h.withHostSide s.host false s.answers s.replies
  unfold State.boundary at hr
  split at hr
  · split at hr
    · cases hr; exact hskip.enterPaused hw
    · rename_i hp; exact hskip.settle_runInstruction hrun (by simpa using hp) hr
  · split at hr
    · cases hr; exact h.enterPaused hw
    · split at hr
      · cases hr; exact h.enterPaused hw
      · rename_i hp; exact h.settle_runInstruction hrun (by simpa using hp) hr

theorem State.Inv.engineTurn (h : s.Inv) (hrun : s.engine = .running) (hr : s.engineTurn = .next t) : t.Inv := by
  unfold State.engineTurn at hr
  split at hr
  · rename_i hw
    exact h.settle_runInstruction hrun (h.noPause_of_waiting hw) hr
  · rename_i hw
    exact h.boundary hrun (by simpa using hw) hr

theorem State.running_of_blocked_eq_none (h : s.blocked = none) : s.engine = .running := by
  unfold State.blocked at h
  split at h
  · assumption
  · cases h
  · cases h
  · cases h

/-! ## The invariant: the host's actions -/

/-- Setting a breakpoint keeps BP strictly rising. -/
theorem insertAddress_rising {lo a : Nat} {bs : List Nat} (hbs : risingAddresses lo bs = true) (hlo : lo ≤ a)
    (ha : a ≤ 65535) : risingAddresses lo (insertAddress a bs) = true := by
  induction bs generalizing lo with
  | nil => simp [insertAddress, risingAddresses, hlo, ha]
  | cons b bs ih =>
    simp only [risingAddresses, Bool.and_eq_true, decide_eq_true_eq] at hbs
    obtain ⟨⟨hlob, hb⟩, hrest⟩ := hbs
    unfold insertAddress
    split_ifs with hlt heq <;> simp only [risingAddresses, Bool.and_eq_true, decide_eq_true_eq]
    · exact ⟨⟨hlo, ha⟩, ⟨by omega, hb⟩, hrest⟩
    · exact ⟨⟨hlob, hb⟩, hrest⟩
    · exact ⟨⟨hlob, hb⟩, ih hrest (by omega)⟩

theorem State.Inv.pauseCall (h : s.Inv) : s.pauseCall.Inv := by
  unfold State.pauseCall
  split
  · rename_i hrun
    split
    · rename_i hw
      have hp : s.pausePending = false := h.noPause_of_waiting hw
      exact State.DataInv.inv_of_notWaiting { h with } rfl (by simp [hp]) rfl
    · rename_i hw
      have hw : s.waitInput = false := by simpa using hw
      exact State.DataInv.inv_of_notWaiting { h with } hw (fun _ => hrun) (h.noSingleStep hw)
  · exact h
  · exact h
  · exact h

theorem State.Inv.resume (h : s.Inv) (he : s.engine ≠ .running) : s.resume.Inv :=
  State.DataInv.inv_of_notWaiting { h with } (h.notWaiting he) (fun _ => rfl) (h.noSingleStep (h.notWaiting he))

theorem State.Inv.runCall (h : s.Inv) : s.runCall.Inv := by
  unfold State.runCall
  split
  · exact h
  all_goals
    rename_i he
    exact h.resume (by simp [he])

theorem State.Inv.reply (h : s.Inv) (r : HostReply) : (s.reply r).Inv :=
  h.withHostSide s.host s.skipBp s.answers (s.replies ++ [r])

/-- An edit of the state by the host, outside Running, needs to keep the clauses about data only. -/
theorem State.Inv.edit (h : s.Inv) (he : s.engine ≠ .running) (ht : t.DataInv) (hwait : t.waitInput = s.waitInput)
    (hp : t.pausePending = s.pausePending) (hs : t.singleStep = s.singleStep) : t.Inv :=
  have hw := h.notWaiting he
  ht.inv_of_notWaiting (hwait.trans hw) (by simp [hp, h.noPause he]) (hs.trans (h.noSingleStep hw))

theorem State.Inv.acceptedCall (h : s.Inv) {c : HostCall} (hc : c.always = true ∨ s.engine ≠ .running) :
    (s.acceptedCall c).2.Inv := by
  have hedit : c.always = false → s.engine ≠ .running := fun hn => hc.resolve_left (by simp [hn])
  cases c with
  | pause => exact h.pauseCall
  | run => exact h.runCall
  | setIp v => exact h.edit (hedit rfl) { h with } rfl rfl rfl
  | writeMemoryWord a v =>
    exact h.edit (hedit rfl) { h with mem_wf := State.memWrite_wf h.mem_wf a v } rfl rfl rfl
  | writeRegister idx v =>
    simp only [State.acceptedCall]
    split
    · exact h.edit (hedit rfl) { h with } rfl rfl rfl
    · exact h
  | readRegister idx => simp only [State.acceptedCall]; split <;> exact h
  | registerBreakpoint a =>
    exact h.edit (hedit rfl) { h with bp_rising := insertAddress_rising h.bp_rising (Nat.zero_le _) (by omega) } rfl rfl rfl
  | _ => exact h

theorem arbiterGrant_inspection {e : EngineState} (h : arbiterGrant (some e) = .inspection) : e ≠ .running := by
  rintro rfl
  cases h

theorem State.Inv.hostCall (h : s.Inv) (c : HostCall) : (s.hostCall c).2.Inv := by
  unfold State.hostCall
  split
  · rename_i hc
    rw [Bool.or_eq_true, decide_eq_true_eq] at hc
    exact h.acceptedCall (hc.imp_right arbiterGrant_inspection)
  · exact h

theorem State.Inv.stepOne (h : s.Inv) (he : s.engine ≠ .running) (hr : s.stepOne = .next t) : t.Inv :=
  have hw := h.notWaiting he
  State.runInstruction_settle_inv (s := { s with engine := .running, skipBp := false, singleStep := true }) { h with } rfl
    (by simp [hw]) (h.noPause he) hr

theorem State.Inv.doCall (h : s.Inv) {c : HostCall} (hr : s.doCall c = .next t) : t.Inv := by
  unfold State.doCall at hr
  split at hr
  · rename_i hstep
    exact (h.reply .done).stepOne (by simp [hstep.2]) hr
  · cases hr
    exact (h.hostCall c).reply _

theorem State.Inv.doAnswer (h : s.Inv) {a : Answer} (hr : s.doAnswer a = .next t) : t.Inv := by
  unfold State.doAnswer at hr
  split at hr
  · rename_i hwait
    have hready := h.withHostSide s.host s.skipBp (a :: s.answers) s.replies
    exact hready.settle_runInstruction hwait.1 (h.noPause_of_waiting hwait.2) hr
  · cases hr
    exact h

theorem State.Inv.hostTurn (h : s.Inv) {action : HostAction} (hr : s.hostTurn action = .next t) : t.Inv := by
  cases action with
  | call c => exact h.doCall hr
  | answer a => exact h.doAnswer hr
  | intercept line => cases hr; exact h

/-- A turn, the host's or the engine's, takes a legal state to a legal state. -/
theorem State.Inv.turn (h : s.Inv) (hr : s.turn = .next t) : t.Inv := by
  have htaken : ∀ rest, { s with host := rest }.Inv := fun rest => h.withHostSide rest s.skipBp s.answers s.replies
  unfold State.turn at hr
  split at hr
  · exact (htaken _).hostTurn hr
  · rename_i rest _
    split at hr
    · cases hr; exact htaken rest
    · rename_i hfree
      exact (htaken rest).engineTurn (State.running_of_blocked_eq_none hfree) hr
  · split at hr
    · cases hr
    · rename_i hfree
      exact h.engineTurn (State.running_of_blocked_eq_none hfree) hr

end

/-- Settles O49: a step is a turn; the clauses about data are kept by every effect and host edit, and a wait is left only at an `In`
that has done nothing but ask for a line. -/
theorem everyStepKeepsTheInvariant : Obligations.EveryStepKeepsTheInvariant :=
  fun _ _ h hr => h.turn hr

end Sys2Proof.Machine
end

section
/-!
PROOF. The statements of 20_memory.md: what a read gives, cell by cell; a write of one cell; WMem, and the fetch that follows it.
-/
namespace Sys2Proof.Machine

open Sys2Proof

/-! ## Reading -/

/-- An unset alias address reads as its register (20_memory.md R64). -/
theorem State.memRead_alias {s : State} {k : Fin 8} (h : s.mem.read (32768 + k.val) = none) :
    s.memRead (32768 + k.val) = some (s.getReg k) := by
  have hcell : 32768 + k.val ≤ 65535 := by omega
  have halias : 32768 ≤ 32768 + k.val ∧ 32768 + k.val ≤ 32775 := by omega
  have hk : Fin.ofNat 8 (32768 + k.val - 32768) = k := by rw [Nat.add_sub_cancel_left]; exact Fin.ofNat_val_eq_self k
  simp only [State.memRead, if_pos hcell, h, if_pos halias, hk]

/-- No set cell and no alias: nothing is read (20_memory.md R64). From 65536 on there is no cell. -/
theorem State.memRead_eq_none {s : State} {a : Nat} (hcell : a ≤ 65535 → s.mem.read a = none)
    (halias : ¬(32768 ≤ a ∧ a ≤ 32775)) : s.memRead a = none := by
  have hunset : (if a ≤ 65535 then s.mem.read a else none) = none := by
    split
    · exact hcell ‹_›
    · rfl
  simp only [State.memRead, hunset, if_neg halias]

/-- Settles O13: a set cell, an alias address, or neither. -/
theorem memReadFollowsTheAliasRule : Obligations.MemReadFollowsTheAliasRule := by
  intro s a
  refine ⟨fun v ha hset => State.memRead_of_read ha hset, fun k hk hunset => ?_, fun ha => ?_, fun _ hunset halias => ?_⟩
  · subst hk
    exact State.memRead_alias hunset
  · exact State.memRead_eq_none (fun hle => by omega) (by omega)
  · exact State.memRead_eq_none (fun _ => hunset) halias

/-! ## Writing -/

/-- The later of two writes of one cell stands. -/
theorem Memory.write_write_same (m : Memory) (a : Nat) (v w : Word) : (m.write a v).write a w = m.write a w := by
  induction m with
  | nil => simp [Memory.write]
  | cons c m ih =>
    obtain ⟨b, u⟩ := c
    simp only [Memory.write]
    split_ifs with hlt heq
    · simp [Memory.write]
    · simp [Memory.write]
    · simp [Memory.write, hlt, heq, ih]

/-- Settles O14: the laws of the word store, at the address of a word. -/
theorem memWriteStoresUnconditionally : Obligations.MemWriteStoresUnconditionally := by
  intro s a v
  refine ⟨Memory.read_write_same _ _ v, fun b hb => Memory.read_write_ne _ v hb, rfl, ?_, fun hwf => State.memWrite_wf hwf a v⟩
  simp only [State.memWrite, Memory.write_write_same]

/-- After a write the address reads as the value, an alias address too, and every other address as before. -/
theorem State.memRead_memWrite (s : State) (a v : Word) (x : Nat) :
    (s.memWrite a v).memRead x = if x = a.toNat then some v else s.memRead x := by
  split_ifs with hx
  · subst hx
    exact State.memRead_of_read (by omega) (Memory.read_write_same _ _ v)
  · have hcell : (s.memWrite a v).mem.read x = s.mem.read x := Memory.read_write_ne _ v hx
    simp only [State.memRead, State.getReg, hcell, State.memWrite_regs]

/-! ## WMem -/

/-- WMem with legal operands and a successor inside memory stores the word and advances (45_memory_ops.md R254). -/
theorem exec_wMem_of {s : State} {a b : Operand} {va vb : Word} (ha : s.operandValue a = some va)
    (hb : s.operandValue b = some vb) (hip : s.ip.toNat + 3 ≤ 65535) :
    exec (.wMem a b) s = .next ((s.memWrite va vb).setIp (BitVec.ofNat 16 (s.ip.toNat + 3))) := by
  have hok : s.storeEffect a b = .ok ((s.memWrite va vb).setIp (BitVec.ofNat 16 (s.ip.toNat + 3))) := by
    simp only [State.storeEffect, State.resolve_of_value _ ha, State.resolve_of_value _ hb]
    rw [State.successor_of_le (n := 2) hip]
    rfl
  rw [exec, execWMem, hok, State.commit_ok]

/-- Settles O37: after the write memory reads as `read`, and a fetch depends on what memory reads as alone. -/
theorem selfModificationIsSeenByTheNextFetch : Obligations.SelfModificationIsSeenByTheNextFetch := by
  intro s a b va vb read ha hb hip hread
  obtain ⟨t, ht⟩ : ∃ t, t = (s.memWrite va vb).setIp (BitVec.ofNat 16 (s.ip.toNat + 3)) := ⟨_, rfl⟩
  have hseen : ∀ x, t.memRead x = read x := fun x => by
    rw [State.memRead_congr (s := s.memWrite va vb) (by rw [ht]; rfl) (by rw [ht]; rfl), State.memRead_memWrite, hread]
  have hnext : t.ip.toNat = s.ip.toNat + 3 := by
    rw [ht, State.setIp_ip, BitVec.toNat_ofNat, Nat.mod_eq_of_lt (by omega)]
  refine ⟨t, ht ▸ exec_wMem_of ha hb hip, hseen, hnext, fun ws i hd hwf hws => ?_, fun ws trap hfault => ?_⟩
  · have hheld : t.holdsWords t.ip.toNat ws := fun j hj => by rw [hseen, hnext, hws j hj]
    exact State.fetch_decoded hd hwf hheld
  · exact State.fetch_of_decodeFault hfault hseen hnext

/-- Settles O44: WMem enters a fault, or stores at its resolved first operand and advances. -/
theorem wMemFrame : Obligations.WMemFrame := by
  intro a b s t hexec
  have hhost : s.SameHostSide t := (exec_effect hexec).sameHostSide
  have hports : s.SamePorts t := (exec_effect hexec).samePorts (by simp [Instr.tag]) (by simp [Instr.tag])
  obtain hok | ⟨tr, -, rfl⟩ := State.commit_next (i := .wMem a b) hexec
  · obtain ⟨va, vb, ha, -, -, rfl⟩ := State.storeEffect_ok hok
    refine ⟨rfl, rfl, hhost, hports, fun va' x ha' hx => ?_, fun hill => ?_, .inl ⟨rfl, rfl, rfl⟩⟩
    · obtain rfl : va = va' := Option.some.inj (ha.symm.trans ha')
      exact Memory.read_write_ne _ vb hx
    · rw [ha] at hill
      cases hill
  · exact ⟨rfl, rfl, hhost, hports, fun _ _ _ _ => rfl, fun _ _ => rfl, .inr (s.faultEntered_raise _ tr)⟩

end Sys2Proof.Machine
end

section
/-!
PROOF. The statements of 30_encoding.md: decode and encode undo each other, the classes of an operand word, the faults of the decode
stage at a ready boundary, the operand checks of `exec`, and display mode.
-/
namespace Sys2Proof

/-! ## Encode, then decode -/

/-- An operand that is legal for a kind is what some word reads as (30_encoding.md R92). -/
theorem Operand.classed_of_accepts {kind : Kind} {o : Operand} (h : kind.accepts o = true) : o.classed = true := by
  cases o with
  | literal v =>
    cases kind with
    | r => exact h
    | w => cases h
  | register k => rfl
  | invalid w => cases kind <;> cases h

theorem Instr.classed_of_wellFormed {i : Instr} (h : i.wellFormed = true) : ∀ o ∈ i.operands, o.classed = true := by
  intro o ho
  have hpairs : (i.tag.kinds.zip i.operands).map Prod.snd = i.operands :=
    List.map_snd_zip (Nat.le_of_eq i.operands_length)
  obtain ⟨⟨kind, _⟩, hmem, rfl⟩ := List.mem_map.1 (hpairs ▸ ho)
  rw [Machine.wellFormed_eq_accepts, List.all_eq_true] at h
  exact Operand.classed_of_accepts (h _ hmem)

section
variable {a b c : Operand} (t : Tag) (rest : List Word)

theorem decode1_toWord (f : Operand → Instr) (h : ∀ o ∈ [a], o.classed = true) :
    decode1 t f ([a].map Operand.toWord ++ rest) = .ok (f a, rest) := by
  rw [List.forall_mem_singleton] at h
  simp [decode1, Operand.ofWord_toWord h]

theorem decode2_toWord (f : Operand → Operand → Instr) (h : ∀ o ∈ [a, b], o.classed = true) :
    decode2 t f ([a, b].map Operand.toWord ++ rest) = .ok (f a b, rest) := by
  rw [List.forall_mem_cons, List.forall_mem_singleton] at h
  obtain ⟨ha, hb⟩ := h
  simp [decode2, Operand.ofWord_toWord ha, Operand.ofWord_toWord hb]

theorem decode3_toWord (f : Operand → Operand → Operand → Instr) (h : ∀ o ∈ [a, b, c], o.classed = true) :
    decode3 t f ([a, b, c].map Operand.toWord ++ rest) = .ok (f a b c, rest) := by
  rw [List.forall_mem_cons, List.forall_mem_cons, List.forall_mem_singleton] at h
  obtain ⟨ha, hb, hc⟩ := h
  simp [decode3, Operand.ofWord_toWord ha, Operand.ofWord_toWord hb, Operand.ofWord_toWord hc]

end

/-- The operand words of an instruction are read back, format by format (30_encoding.md R93). -/
theorem decodeTag_toWord {i : Instr} (rest : List Word) (h : ∀ o ∈ i.operands, o.classed = true) :
    decodeTag i.tag (i.operands.map Operand.toWord ++ rest) = .ok (i, rest) := by
  cases i with
  | halt | ret | noop => rfl
  | push a | pop a | jmp a | call a | out a | input a =>
    simp only [Instr.tag, decodeTag]
    exact decode1_toWord _ rest _ h
  | set a b | jmpIfTrue a b | jmpIfFalse a b | not a b | rMem a b | wMem a b =>
    simp only [Instr.tag, decodeTag]
    exact decode2_toWord _ rest _ h
  | eq a b c | gt a b c | add a b c | mult a b c | mod a b c | and a b c | or a b c =>
    simp only [Instr.tag, decodeTag]
    exact decode3_toWord _ rest _ h

theorem decode_encode {i : Instr} (rest : List Word) (h : ∀ o ∈ i.operands, o.classed = true) :
    decode (encode i ++ rest) = .ok (i, rest) := by
  simp only [encode, List.cons_append, decode, Tag.ofWord_value, decodeTag_toWord rest h]

/-- Settles O1: the opcode word gives the tag back, and each operand word its class. -/
theorem encodeThenDecodeReturnsTheInstruction : Obligations.EncodeThenDecodeReturnsTheInstruction :=
  fun _ rest => ⟨fun hwf => decode_encode rest (Instr.classed_of_wellFormed hwf), decode_encode rest⟩

/-! ## Decode, then encode -/

/-- What decodes is an opcode word of the table, the operand words and the rest. -/
theorem decode_ok {ws rest : List Word} {i : Instr} (h : decode ws = .ok (i, rest)) :
    ∃ op os, ws = op :: (os ++ rest) ∧ Tag.ofWord op = some i.tag ∧ i.operands = os.map Operand.ofWord := by
  cases ws with
  | nil => cases h
  | cons op ws =>
    simp only [decode] at h
    split at h
    · cases h
    · rename_i t ht
      obtain ⟨rfl, os, hops, -, rfl⟩ := decodeTag_ok h
      exact ⟨op, os, rfl, ht, hops⟩

theorem encode_of_decode {ws rest : List Word} {i : Instr} (h : decode ws = .ok (i, rest)) : encode i ++ rest = ws := by
  obtain ⟨op, os, rfl, htag, hops⟩ := decode_ok h
  have hos : i.operands.map Operand.toWord = os := by
    rw [hops, List.map_map]
    exact List.map_id'' Operand.toWord_ofWord os
  rw [encode, Tag.value_of_ofWord htag, hos, List.cons_append]

/-- Settles O2: the tag and the classes give back the words they were read from. -/
theorem decodeThenEncodeReturnsTheWords : Obligations.DecodeThenEncodeReturnsTheWords := by
  intro ws rest i h
  have hback := encode_of_decode h
  refine ⟨hback, ?_, fun o ho => ?_⟩
  · rw [← hback, List.length_append, encode_length]
  · obtain ⟨_, os, -, -, hops⟩ := decode_ok h
    rw [hops] at ho
    obtain ⟨w, -, rfl⟩ := List.mem_map.1 ho
    exact Operand.classed_ofWord w

/-! ## The classes of an operand word -/

/-- Settles O3: each class is read back from its word. -/
theorem operandWordsFallIntoThreeClasses : Obligations.OperandWordsFallIntoThreeClasses := by
  intro w
  refine ⟨Operand.ofWord_literal, fun k hk => ?_, fun hw => ?_⟩
  · obtain rfl : w = BitVec.ofNat 16 (32768 + k.val) := BitVec.eq_of_toNat_eq (by rw [BitVec.toNat_ofNat]; omega)
    exact Operand.ofWord_register k
  · exact Operand.ofWord_toWord (o := .invalid w) (decide_eq_true hw)

/-- Settles O5, by evaluation. -/
theorem specWordsDecode : Obligations.SpecWordsDecode := by
  unfold Obligations.SpecWordsDecode
  decide

end Sys2Proof

namespace Sys2Proof.Machine

open Sys2Proof

/-- Settles O4: the class of the word decides what Resolve and CheckDst answer. -/
theorem resolveAndCheckDst : Obligations.ResolveAndCheckDst := by
  intro s k w
  obtain ⟨hliteral, hregister, hinvalid⟩ := operandWordsFallIntoThreeClasses w
  refine ⟨fun hw => ?_, fun r hw => ?_, fun hw => ?_⟩
  · rw [hliteral hw]
    exact ⟨State.resolve_of_value k (if_pos hw), rfl⟩
  · rw [hregister r hw]
    exact ⟨rfl, rfl⟩
  · rw [hinvalid hw]
    exact ⟨rfl, rfl⟩

/-! ## A step at a ready boundary -/

/-- At a boundary with no breakpoint taken and no pause pending the instruction runs, with SKIP_BP = 0 (60_exceptions.md R336). -/
theorem State.boundary_passes {s : State} (hpause : s.pausePending = false) (hbreak : s.skipBp = true ∨ s.ip.toNat ∉ s.bp) :
    s.boundary = settleResult { s with skipBp := false }.runInstruction := by
  unfold State.boundary
  cases hskip : s.skipBp with
  | true => simp [hpause]
  | false =>
    have hnot : s.ip.toNat ∉ s.bp := hbreak.resolve_left (by simp [hskip])
    have hsame : { s with skipBp := false } = s := by rw [← hskip]
    rw [hsame]
    simp [hpause, hnot]

/-- When the engine moves and has a step, the turn is the engine's, and it is taken. -/
theorem State.turn_of_engineMoves {s : State} (hmoves : s.engineMoves) (hfree : s.blocked = none) :
    s.turn = State.engineTurn { s with host := s.host.tail } := by
  unfold State.turn
  obtain hhost | ⟨rest, hhost⟩ := hmoves
  · have hsame : { s with host := s.host.tail } = s := by rw [hhost, List.tail_nil, ← hhost]
    rw [hsame]
    simp only [hhost, hfree]
  · simp only [hhost, hfree, List.tail_cons]

/-- At a ready boundary a step is the whole instruction at IP and the end of a single step around it. -/
theorem step_of_ready {s : State} (h : s.ready) : step s = settleResult s.atInstruction.runInstruction := by
  obtain ⟨hmoves, hrun, hwait, hpause, hbreak⟩ := h
  have hfree : s.blocked = none := by simp [State.blocked, hrun, hwait]
  rw [step, State.turn_of_engineMoves hmoves hfree, State.engineTurn, if_neg (by simp [hwait])]
  exact State.boundary_passes (s := { s with host := s.host.tail }) hpause hbreak

/-- At a ready boundary a fault of the decode stage is entered, with the words fetched so far (60_exceptions.md R313). -/
theorem step_of_decodeFault {s : State} {ws : List Word} {trap : Trap} (h : s.ready)
    (hfault : DecodeFault s.memRead s.ip.toNat ws trap) :
    step s = .next (s.atInstruction.enterFault ws trap).settle := by
  have hfetch : s.atInstruction.fetch = .error { words := ws, trap := trap } :=
    State.fetch_of_decodeFault hfault (State.memRead_congr rfl rfl) rfl
  rw [step_of_ready h, State.runInstruction, hfetch]
  rfl

/-- Settles O6: an unknown opcode is a fault of the decode stage. -/
theorem unknownOpcodeFaults : Obligations.UnknownOpcodeFaults :=
  fun _ op hready hread hop => step_of_decodeFault hready (.unknownOpcode op hread hop)

/-- Settles O7: each case is a fault of the decode stage. -/
theorem fetchFaultsComeInOrder : Obligations.FetchFaultsComeInOrder := by
  refine fun s hready => ⟨fun hnone => step_of_decodeFault hready (.opcodeUnset hnone), ?_⟩
  intro op t ws hop htag hlen hws hlegal
  exact ⟨fun hnone => step_of_decodeFault hready (.operandUnset op t ws hop htag hlen hws hlegal hnone),
    fun w kind hw hkind hill =>
      step_of_decodeFault hready (.operandIllegal op t ws w kind hop htag hws hlegal hw hkind hill)⟩

/-! ## The operand checks of exec -/

/-- The computation raises InvalidOperand for the first of the operands that is illegal for its kind; the operands are numbered from
`n` on. -/
def ChecksOperands {α : Type} (n : Nat) (ops : List (Kind × Operand)) (x : Except Trap α) : Prop :=
  ∀ (k : Nat) (kind : Kind) (o : Operand), ops[k]? = some (kind, o) → kind.accepts o = false →
    ((ops.take k).all fun p => p.1.accepts p.2) = true → x = .error (.invalidOperand (n + k))

section
variable {α β : Type} {n : Nat} {ops : List (Kind × Operand)}

theorem ChecksOperands.nil {x : Except Trap α} : ChecksOperands n [] x := fun _ _ _ hk => by cases hk

/-- A check of the first operand, and then the checks of the others. -/
theorem ChecksOperands.bind {kind : Kind} {o : Operand} {check : Except Trap β} {f : β → Except Trap α}
    (herror : ∀ {tr}, check = .error tr → tr = .invalidOperand n ∧ kind.accepts o = false)
    (hok : ∀ {v}, check = .ok v → kind.accepts o = true) (hf : ∀ v, ChecksOperands (n + 1) ops (f v)) :
    ChecksOperands n ((kind, o) :: ops) (check >>= f) := by
  intro k kind' o' hk hill hlegal
  cases k with
  | zero =>
    cases hk
    cases check with
    | error tr => obtain ⟨rfl, -⟩ := herror rfl; rfl
    | ok v => simp [hok rfl] at hill
  | succ k =>
    obtain ⟨hfirst, hlegal⟩ : kind.accepts o = true ∧ ((ops.take k).all fun p => p.1.accepts p.2) = true := by
      simpa only [List.take_succ_cons, List.all_cons, Bool.and_eq_true] using hlegal
    cases check with
    | error tr => simp [(herror rfl).2] at hfirst
    | ok v =>
      have := hf v k kind' o' hk hill hlegal
      rwa [Nat.add_right_comm] at this

theorem ChecksOperands.read (s : State) (o : Operand) {f : Word → Except Trap α}
    (hf : ∀ v, ChecksOperands (n + 1) ops (f v)) : ChecksOperands n ((.r, o) :: ops) (s.resolve n o >>= f) :=
  .bind (fun h => Kind.accepts_r o ▸ State.resolve_error h)
    (fun h => by rw [Kind.accepts_r, ← State.operandValue_readable (s := s), State.resolve_ok h]; rfl) hf

theorem ChecksOperands.write (o : Operand) {f : Fin 8 → Except Trap α}
    (hf : ∀ d, ChecksOperands (n + 1) ops (f d)) : ChecksOperands n ((.w, o) :: ops) (dstReg n o >>= f) :=
  .bind (fun h => Kind.accepts_w o ▸ dstReg_error h) (fun h => by rw [dstReg_ok h]; rfl) hf

end

section
variable (s : State) (a b c : Operand)

theorem State.writeUnary_checks (f : Word → Except Trap Word) :
    ChecksOperands 0 [(.w, a), (.r, b)] (s.writeUnary a b f) :=
  .write a fun _ => .read s b fun _ => .nil

theorem State.writeBinary_checks (f : Word → Word → Except Trap Word) :
    ChecksOperands 0 [(.w, a), (.r, b), (.r, c)] (s.writeBinary a b c f) :=
  .write a fun _ => .read s b fun _ => .read s c fun _ => .nil

theorem State.branch_checks (taken : Word → Bool) : ChecksOperands 0 [(.r, a), (.r, b)] (s.branch a b taken) :=
  .read s a fun _ => .read s b fun _ => .nil

end

/-- An instruction with an illegal operand raises InvalidOperand for the first one, before anything else it could raise. -/
theorem exec_of_illegal {s : State} {i : Instr} {k : Nat} {kind : Kind} {o : Operand}
    (hk : (i.tag.kinds.zip i.operands)[k]? = some (kind, o)) (hill : kind.accepts o = false)
    (hlegal : (((i.tag.kinds.zip i.operands).take k).all fun p => p.1.accepts p.2) = true) :
    exec i s = .next (s.raise i (.invalidOperand k)) := by
  have hraise : ∀ {α : Type} {x : Except Trap α}, ChecksOperands 0 (i.tag.kinds.zip i.operands) x →
      x = .error (.invalidOperand k) := fun hx => by simpa using hx k kind o hk hill hlegal
  have hcommit : ∀ {x : Except Trap State}, ChecksOperands 0 (i.tag.kinds.zip i.operands) x →
      s.commit i x = .next (s.raise i (.invalidOperand k)) := fun hx => by rw [hraise hx, State.commit_error]
  cases i with
  | halt | ret | noop => exact hcommit .nil
  | set a b | not a b | rMem a b => exact hcommit (s.writeUnary_checks a b _)
  | eq a b c | gt a b c | add a b c | mult a b c | mod a b c | and a b c | or a b c =>
    exact hcommit (s.writeBinary_checks a b c _)
  | jmpIfTrue a b | jmpIfFalse a b => exact hcommit (s.branch_checks a b _)
  | push a | jmp a | call a | out a => exact hcommit (.read s a fun _ => .nil)
  | wMem a b => exact hcommit (.read s a fun _ => .read s b fun _ => .nil)
  | pop a => exact hcommit (.write a fun _ => .nil)
  | input a =>
    have htarget : s.inputTarget a = .error (.invalidOperand k) := hraise (.write a fun _ => .nil)
    rw [exec, execIn, htarget]

/-- Settles O10: `exec` checks the operands in order, before anything else. -/
theorem firstIllegalOperandIsReported : Obligations.FirstIllegalOperandIsReported :=
  fun _ _ _ _ _ hkind ho hill hlegal => exec_of_illegal (List.getElem?_zip_eq_some.2 ⟨hkind, ho⟩) hill hlegal

/-! ## Display mode -/

theorem displayOperands_length (m : Memory) (a n : Nat) : (displayOperands m a n).length = n := by
  induction n generalizing a with
  | zero => rfl
  | succ n ih => rw [displayOperands, List.length_cons, ih]

/-- Operand `k` is shown as its raw cell, absent beyond 65535 (30_encoding.md R107 (b), (c)). -/
theorem displayOperands_getElem? {m : Memory} {a n k : Nat} {o : Option Word} (h : (displayOperands m a n)[k]? = some o) :
    o = if a + k ≤ 65535 then m.read (a + k) else none := by
  induction n generalizing a k with
  | zero => cases h
  | succ n ih =>
    cases k with
    | zero => exact (Option.some.inj h).symm
    | succ k =>
      have := ih (a := a + 1) (k := k) h
      rwa [Nat.add_right_comm] at this

/-- Settles O54: an opcode is unknown or has a tag, and the operands are the cells after it. -/
theorem displayModeNeverFaults : Obligations.DisplayModeNeverFaults := by
  intro m a op ha hread
  refine ⟨fun hop => ?_, fun t htag => ⟨displayOperands m (a + 1) t.arity, ?_, displayOperands_length m _ _,
    fun k o hk => displayOperands_getElem? hk⟩⟩
  · simp only [displayDecode, if_pos ha, hread, (Tag.ofWord_eq_none op).2 hop]
  · simp only [displayDecode, if_pos ha, hread, htag]

end Sys2Proof.Machine
end

section
/-!
PROOF. The statements of 40_engine.md: when no step is enabled, the step at a ready boundary, Halt and Noop, a used successor of
65536, and how a run ends.
-/
namespace Sys2Proof.Machine

open Sys2Proof

/-! ## When no step is enabled -/

/-- An engine that has no step stops under its own name when the host has no turn left (40_engine.md R131). -/
theorem step_of_blocked {s : State} {f : Fault} (hhost : s.host = []) (hblocked : s.blocked = some f) :
    step s = .fault f := by
  simp only [step, State.turn, hhost, hblocked]

/-- Settles O12: in each of the four cases the engine is blocked. -/
theorem stoppedEngineHasNoStep : Obligations.StoppedEngineHasNoStep := by
  intro s hhost
  refine ⟨fun he => ?_, fun he => ?_, fun he => ?_, fun he hwait hanswers => ?_⟩ <;> apply step_of_blocked hhost
  · simp only [State.blocked, he]
  · simp only [State.blocked, he]
  · simp only [State.blocked, he]
  · simp [State.blocked, he, hwait, hanswers]

/-! ## The step at a ready boundary -/

/-- Settles O8: the whole instruction of a ready step is `exec` of what the words at IP decode to. -/
theorem stepRunsTheDecodedInstruction : Obligations.StepRunsTheDecodedInstruction := by
  intro s i ws hready hd hwf hws
  have hheld : s.atInstruction.holdsWords s.atInstruction.ip.toNat ws := fun j hj =>
    (State.memRead_congr rfl rfl _).trans (hws j hj)
  rw [step_of_ready hready, State.runInstruction_decoded hd hwf hheld]

/-! ## A used successor of 65536 -/

section
variable {α : Type} {s : State} {a b c : Operand} {x : Except Trap α}

/-- A legal R operand raises nothing, so what comes after it decides. -/
theorem State.resolve_bind_of_readable {k : Nat} {f : Word → Except Trap α} (ha : a.readable = true)
    (hf : ∀ v, f v = x) : (s.resolve k a >>= f) = x := by
  cases hr : s.resolve k a with
  | ok v => exact hf v
  | error tr => simp [(State.resolve_error hr).2] at ha

/-- A legal W operand raises nothing, so what comes after it decides. -/
theorem dstReg_bind_of_writable {k : Nat} {f : Fin 8 → Except Trap α} (ha : a.writable = true)
    (hf : ∀ d, f d = x) : (dstReg k a >>= f) = x := by
  cases hr : dstReg k a with
  | ok d => exact hf d
  | error tr => simp [(dstReg_error hr).2] at ha

theorem State.successor_bind_of_gt {n : Nat} {f : Word → Except Trap α} (hip : 65536 ≤ s.ip.toNat + 1 + n) :
    (s.successor n >>= f) = .error (.invalidAddress 65536) := by
  rw [State.successor_of_gt hip]
  rfl

theorem State.advance_of_gt (hip : 65536 ≤ s.ip.toNat + 1) : s.advance = .error (.invalidAddress 65536) :=
  State.successor_bind_of_gt hip

theorem State.haltEffect_of_gt (hip : 65536 ≤ s.ip.toNat + 1) : s.haltEffect = .error (.invalidAddress 65536) := by
  rw [State.haltEffect, State.advance_of_gt hip]
  rfl

theorem State.writeUnary_of_gt {f : Word → Except Trap Word} (hlegal : (a.writable && b.readable) = true)
    (hip : 65536 ≤ s.ip.toNat + 3) : s.writeUnary a b f = .error (.invalidAddress 65536) := by
  obtain ⟨ha, hb⟩ := Bool.and_eq_true_iff.1 hlegal
  exact dstReg_bind_of_writable ha fun _ => State.resolve_bind_of_readable hb fun _ =>
    State.successor_bind_of_gt (n := 2) hip

theorem State.writeBinary_of_gt {f : Word → Word → Except Trap Word}
    (hlegal : (a.writable && b.readable && c.readable) = true) (hip : 65536 ≤ s.ip.toNat + 4) :
    s.writeBinary a b c f = .error (.invalidAddress 65536) := by
  obtain ⟨hab, hc⟩ := Bool.and_eq_true_iff.1 hlegal
  obtain ⟨ha, hb⟩ := Bool.and_eq_true_iff.1 hab
  exact dstReg_bind_of_writable ha fun _ => State.resolve_bind_of_readable hb fun _ =>
    State.resolve_bind_of_readable hc fun _ => State.successor_bind_of_gt (n := 3) hip

end

/-- A legal instruction that uses its successor on every path raises InvalidAddress(65536) where the successor is past the last
address, before any fault of its own (40_engine.md R136, 60_exceptions.md R313). -/
theorem exec_of_successor_gt {s : State} {i : Instr} (hwf : i.wellFormed = true) (huses : i.tag.usesSuccessor = true)
    (hip : 65536 ≤ s.ip.toNat + 1 + i.tag.arity) : exec i s = .next (s.raise i (.invalidAddress 65536)) := by
  have hcommit : ∀ {x : Except Trap State}, x = .error (.invalidAddress 65536) →
      s.commit i x = .next (s.raise i (.invalidAddress 65536)) := fun hx => by rw [hx, State.commit_error]
  cases i with
  | halt => exact hcommit (State.haltEffect_of_gt hip)
  | noop => exact hcommit (State.advance_of_gt hip)
  | set a b | not a b | rMem a b => exact hcommit (State.writeUnary_of_gt hwf hip)
  | eq a b c | gt a b c | add a b c | mult a b c | mod a b c | and a b c | or a b c =>
    exact hcommit (State.writeBinary_of_gt hwf hip)
  | push a | call a | out a =>
    exact hcommit (State.resolve_bind_of_readable hwf fun _ => State.successor_bind_of_gt hip)
  | pop a => exact hcommit (dstReg_bind_of_writable hwf fun _ => State.successor_bind_of_gt hip)
  | wMem a b =>
    obtain ⟨ha, hb⟩ := Bool.and_eq_true_iff.1 hwf
    exact hcommit (State.resolve_bind_of_readable ha fun _ => State.resolve_bind_of_readable hb fun _ =>
      State.successor_bind_of_gt hip)
  | input a =>
    have htarget : s.inputTarget a = .error (.invalidAddress 65536) :=
      dstReg_bind_of_writable hwf fun _ => State.successor_bind_of_gt hip
    rw [exec, execIn, htarget]
  | jmp a | jmpIfTrue a b | jmpIfFalse a b | ret => cases huses

/-- Settles O9: the successor is used after the operands and before anything else. -/
theorem usedSuccessorNeverWraps : Obligations.UsedSuccessorNeverWraps :=
  fun _ _ hwf huses hip => exec_of_successor_gt hwf huses hip.ge

/-! ## Halt and Noop -/

theorem State.advance_of_le {s : State} (hip : s.ip.toNat + 1 ≤ 65535) :
    s.advance = .ok (s.setIp (BitVec.ofNat 16 (s.ip.toNat + 1))) := by
  rw [State.advance, State.successor_of_le (n := 0) hip]
  rfl

theorem State.haltEffect_of_le {s : State} (hip : s.ip.toNat + 1 ≤ 65535) :
    s.haltEffect = .ok ((s.setIp (BitVec.ofNat 16 (s.ip.toNat + 1))).setEngine .halted) := by
  rw [State.haltEffect, State.advance_of_le hip]
  rfl

/-- Settles O26: the two cases of the successor. -/
theorem haltAdvancesAndHalts : Obligations.HaltAdvancesAndHalts := by
  refine fun s => ⟨fun hip => ?_, fun hip => usedSuccessorNeverWraps s .halt rfl rfl hip⟩
  rw [exec, execHalt, State.haltEffect_of_le hip, State.commit_ok]
  rfl

/-- Settles O27: the two cases of the successor. -/
theorem noopAdvances : Obligations.NoopAdvances := by
  refine fun s => ⟨fun hip => ?_, fun hip => usedSuccessorNeverWraps s .noop rfl rfl hip⟩
  rw [exec, execNoop, State.advance_of_le hip, State.commit_ok]
  rfl

/-! ## How a run ends -/

/-- The instruction at IP ended the run by itself: it halted, as Halt or as Ret on an empty stack, or a fault was entered at it
(40_engine.md R131, R138). -/
def State.EndedByInstruction (s t : State) : Prop :=
  t.engine = .halted ∧ (s.fetch = .ok [0] ∨ s.fetch = .ok [18] ∧ s.stack = []) ∨
    t.engine = .faulted ∧ t.fault.fip = s.ip ∧ t.ip = s.ip

section
variable {s t : State}

theorem State.EndedByInstruction.not_running (h : s.EndedByInstruction t) : t.engine ≠ .running := by
  obtain ⟨he, -⟩ | ⟨he, -⟩ := h <;> simp [he]

/-- STATE changes by a halt or by a fault alone. -/
theorem Effect.engine_cases {i : Instr} (h : Effect i s t) :
    t.engine = s.engine ∨ (t.engine = .halted ∧ (i = .halt ∨ i = .ret ∧ s.stack = [])) ∨
      (t.engine = .faulted ∧ t.fault.fip = s.ip ∧ t.ip = s.ip) := by
  cases h with
  | fault tr => exact .inr (.inr ⟨rfl, rfl, rfl⟩)
  | halt n hi => exact .inr (.inl ⟨rfl, hi⟩)
  | eof htag => exact .inr (.inr (by simp [faultRecord]))
  | _ => left; simp [State.deliver]

/-- A whole instruction keeps STATE or ends the run. -/
theorem State.runInstruction_engine (h : s.runInstruction = .next t) : t.engine = s.engine ∨ s.EndedByInstruction t := by
  obtain ⟨ws, tr, -, rfl⟩ | ⟨ws, i, hf, hd, he⟩ := State.runInstruction_effect h
  · exact .inr (.inr ⟨rfl, rfl, rfl⟩)
  · have hwords : encode i = ws := by simpa using (decodeThenEncodeReturnsTheWords ws [] i hd).1
    subst hwords
    obtain hkept | ⟨hhalted, rfl | ⟨rfl, hstack⟩⟩ | hfaulted := he.engine_cases
    · exact .inl hkept
    · exact .inr (.inl ⟨hhalted, .inl hf⟩)
    · exact .inr (.inl ⟨hhalted, .inr ⟨hf, hstack⟩⟩)
    · exact .inr (.inr hfaulted)

/-- The end of a single step turns Running into Paused and does nothing else to STATE. -/
theorem State.settle_engine (s : State) :
    s.settle.engine = s.engine ∨ s.settle.engine = .paused ∧ s.engine = .running ∧ s.singleStep = true := by
  unfold State.settle
  split
  · rename_i hend
    by_cases hrun : s.engine = .running
    · exact .inr ⟨if_pos hrun, hrun, (Bool.and_eq_true_iff.1 hend).1⟩
    · exact .inl (if_neg hrun)
  · exact .inl rfl

@[simp] theorem State.settle_ip (s : State) : s.settle.ip = s.ip := by unfold State.settle; split <;> rfl
@[simp] theorem State.settle_fault (s : State) : s.settle.fault = s.fault := by unfold State.settle; split <;> rfl

/-- The end of a single step leaves a run that the instruction ended as it is. -/
theorem State.EndedByInstruction.settle (h : s.EndedByInstruction t) : s.EndedByInstruction t.settle := by
  have hkept : t.settle.engine = t.engine := t.settle_engine.resolve_right fun hp => h.not_running hp.2.1
  simpa only [State.EndedByInstruction, hkept, State.settle_ip, State.settle_fault] using h

/-- A run in `s` ended in `t` in one of the ways of 40_engine.md R131 and R138: by its instruction, or Paused at a breakpoint, by a
pending pause or at the end of a single step. -/
def State.RunEnded (s t : State) : Prop :=
  s.EndedByInstruction t ∨ t.engine = .paused ∧ (s.ip.toNat ∈ s.bp ∨ s.pausePending = true ∨ s.singleStep = true)

/-- How a run ended does not depend on the host's list and SKIP_BP. -/
theorem State.RunEnded.of_hostSide {host : List (Option HostAction)} {skip : Bool}
    (h : State.RunEnded { s with host := host, skipBp := skip } t) : s.RunEnded t := by
  have hfetch : State.fetch { s with host := host, skipBp := skip } = s.fetch := State.fetch_congr rfl rfl rfl
  simpa only [State.RunEnded, State.EndedByInstruction, hfetch] using h

/-- A whole instruction with the end of a single step around it leaves Running only by ending the run. -/
theorem State.runEnded_of_settle (hrun : s.engine = .running) (hr : settleResult s.runInstruction = .next t)
    (hstop : t.engine ≠ .running) : s.RunEnded t := by
  obtain ⟨u, hu⟩ := s.runInstruction_next
  rw [hu] at hr
  cases hr
  obtain hkept | hended := State.runInstruction_engine hu
  · obtain hsame | ⟨hpaused, -, hsingle⟩ := u.settle_engine
    · exact absurd (hsame.trans (hkept.trans hrun)) hstop
    · exact .inr ⟨hpaused, .inr (.inr ((State.runInstruction_sameHostSide hu).singleStep ▸ hsingle))⟩
  · exact .inl hended.settle

theorem State.runEnded_of_boundary (hrun : s.engine = .running) (hr : s.boundary = .next t) (hstop : t.engine ≠ .running) :
    s.RunEnded t := by
  unfold State.boundary at hr
  split at hr
  · split at hr
    · rename_i hpause; cases hr; exact .inr ⟨rfl, .inr (.inl hpause)⟩
    · exact (State.runEnded_of_settle (s := { s with skipBp := false }) hrun hr hstop).of_hostSide
  · split at hr
    · rename_i hbreak; cases hr; exact .inr ⟨rfl, .inl (by simpa using hbreak)⟩
    · split at hr
      · rename_i hpause; cases hr; exact .inr ⟨rfl, .inr (.inl hpause)⟩
      · exact State.runEnded_of_settle hrun hr hstop

theorem State.runEnded_of_engineTurn (hrun : s.engine = .running) (hr : s.engineTurn = .next t)
    (hstop : t.engine ≠ .running) : s.RunEnded t := by
  unfold State.engineTurn at hr
  split at hr
  · exact State.runEnded_of_settle hrun hr hstop
  · exact State.runEnded_of_boundary hrun hr hstop

/-- A turn of an engine that has no step passes: nothing but the host's list changes (00_scope.md R3). -/
theorem State.turn_passes_of_blocked {f : Fault} (hmoves : s.engineMoves) (hblocked : s.blocked = some f) (hr : s.turn = .next t) :
    t = { s with host := s.host.tail } := by
  unfold State.turn at hr
  obtain hhost | ⟨rest, hhost⟩ := hmoves <;> simp only [hhost, hblocked] at hr <;> cases hr
  rw [hhost, List.tail_cons]

end

/-- Settles O48: the turn passes in Running, or it is a boundary's or a whole instruction's. -/
theorem runEndsOnlyByHaltRetOrFault : Obligations.RunEndsOnlyByHaltRetOrFault := by
  intro s t hmoves hrun hr hstop
  refine or_assoc.1 (show s.RunEnded t from ?_)
  rw [step] at hr
  cases hblocked : s.blocked with
  | some f =>
    obtain rfl := State.turn_passes_of_blocked hmoves hblocked hr
    exact absurd hrun hstop
  | none =>
    rw [State.turn_of_engineMoves hmoves hblocked] at hr
    exact (State.runEnded_of_engineTurn (s := { s with host := s.host.tail }) hrun hr hstop).of_hostSide

end Sys2Proof.Machine
end

section
/-!
PROOF. The statements of 41_set_stack.md: Set, Push and Pop with the next state of each, and the faults of the stack.
-/
namespace Sys2Proof.Machine

open Sys2Proof

section
variable {s : State}

/-- An operand that resolves is a legal R operand (30_encoding.md R97). -/
theorem State.readable_of_value {o : Operand} {v : Word} (h : s.operandValue o = some v) : o.readable = true := by
  rw [← State.operandValue_readable (s := s), h]
  rfl

/-! ## The stack operations -/

theorem State.pushChecked_of_lt (v : Word) (hroom : s.stack.length < s.stackCapacity) :
    s.pushChecked v = .ok (s.pushWord v) :=
  if_neg (Nat.not_le.2 hroom)

theorem State.pushChecked_of_ge (v : Word) (hfull : s.stackCapacity ≤ s.stack.length) :
    s.pushChecked v = .error .stackOverflow :=
  if_pos hfull

/-- After its operand and its successor, Push is the push with its capacity check, and the advance (41_set_stack.md R163). -/
theorem State.pushEffect_of {a : Operand} {va : Word} (ha : s.operandValue a = some va) (hip : s.ip.toNat + 2 ≤ 65535) :
    s.pushEffect a = (s.pushChecked va).map (State.setIp · (BitVec.ofNat 16 (s.ip.toNat + 2))) := by
  simp only [State.pushEffect, State.resolve_of_value 0 ha, State.successor_of_le (n := 1) hip, bind, Except.bind]
  cases s.pushChecked va <;> rfl

theorem State.popEffect_of_cons {v : Word} {rest : List Word} (d : Fin 8) (hstack : s.stack = v :: rest)
    (hip : s.ip.toNat + 2 ≤ 65535) :
    s.popEffect (.register d) = .ok ((s.dropTop.setReg d v).setIp (BitVec.ofNat 16 (s.ip.toNat + 2))) := by
  rw [State.popEffect, dstReg_register, State.successor_of_le (n := 1) hip, hstack]
  rfl

theorem State.popEffect_of_nil (d : Fin 8) (hstack : s.stack = []) (hip : s.ip.toNat + 2 ≤ 65535) :
    s.popEffect (.register d) = .error .stackUnderflow := by
  rw [State.popEffect, dstReg_register, State.successor_of_le (n := 1) hip, hstack]
  rfl

end

/-! ## Set, Push and Pop -/

/-- Settles O15: the shape `dst, R` with the source itself as the value, or the successor past the last address. -/
theorem setCopiesTheSource : Obligations.SetCopiesTheSource := by
  refine fun s d b vb hb => ⟨fun hip => ?_, fun hip => ?_⟩
  · rw [exec, execSet, State.writeUnary_of hb hip]
    rfl
  · exact usedSuccessorNeverWraps s (.set (.register d) b) (State.readable_of_value hb) rfl hip

/-- Settles O16: the capacity check decides where the successor is an address. -/
theorem pushAppendsOrOverflows : Obligations.PushAppendsOrOverflows := by
  refine fun s a va ha => ⟨fun hip hroom => ?_, fun hip hfull => ?_, fun hip => ?_⟩
  · rw [exec, execPush, State.pushEffect_of ha hip, State.pushChecked_of_lt va hroom]
    rfl
  · rw [exec, execPush, State.pushEffect_of ha hip, State.pushChecked_of_ge va hfull.ge]
    rfl
  · exact usedSuccessorNeverWraps s (.push a) (State.readable_of_value ha) rfl hip

/-- Settles O17: the stack decides where the successor is an address. -/
theorem popAssignsOrUnderflows : Obligations.PopAssignsOrUnderflows := by
  refine fun s d => ⟨fun v rest hstack hip => ?_, fun hstack hip => ?_, fun hip => ?_⟩
  · rw [exec, execPop, State.popEffect_of_cons d hstack hip, State.commit_ok, State.dropTop, hstack]
    rfl
  · rw [exec, execPop, State.popEffect_of_nil d hstack hip]
    rfl
  · exact usedSuccessorNeverWraps s (.pop (.register d)) rfl rfl hip

end Sys2Proof.Machine
end

section
/-!
PROOF. The statements of 42_compare.md: Eq and Gt, each the shape `dst, R, R` with the 0 or 1 of its comparison as the value.
-/
namespace Sys2Proof.Machine

open Sys2Proof

/-- The comparison's word is decided by the proposition it tests (42_compare.md R180, R183). -/
theorem boolWord_decide (p : Prop) [Decidable p] : boolWord (decide p) = if p then 1 else 0 := by
  simp only [boolWord, decide_eq_true_eq]

section
variable {s : State} {b c : Operand} {vb vc : Word}

/-- The shape `dst, R, R` with a register and two operands that resolve is legal (30_encoding.md R97, R99). -/
theorem State.legal_binary_of_values (d : Fin 8) (hb : s.operandValue b = some vb) (hc : s.operandValue c = some vc) :
    ((Operand.register d).writable && b.readable && c.readable) = true := by
  rw [State.readable_of_value hb, State.readable_of_value hc]
  rfl

/-- An instruction of the shape `dst, R, R` with no fault of its own writes its value and advances by 4. -/
theorem State.commit_writeBinary_of {d : Fin 8} (i : Instr) (f : Word → Word → Word) (hb : s.operandValue b = some vb)
    (hc : s.operandValue c = some vc) (hip : s.ip.toNat + 4 ≤ 65535) :
    s.commit i (s.writeBinary (.register d) b c fun v w => .ok (f v w)) =
      .next ((s.setReg d (f vb vc)).setIp (BitVec.ofNat 16 (s.ip.toNat + 4))) := by
  rw [State.writeBinary_of hb hc hip]
  rfl

end

/-! ## Eq and Gt -/

/-- Settles O18: equal numbers are equal words. -/
theorem eqWritesOneOrZero : Obligations.EqWritesOneOrZero := by
  refine fun s d b c vb vc hb hc => ⟨fun hip => ?_, fun hip => ?_⟩
  · rw [exec, execEq, State.commit_writeBinary_of _ _ hb hc hip, boolWord_decide]
    simp only [BitVec.toNat_inj]
    rfl
  · exact usedSuccessorNeverWraps s (.eq (.register d) b c) (State.legal_binary_of_values d hb hc) rfl hip

/-- Settles O19: `vb > vc` as numbers is the test of the statement. -/
theorem gtWritesOneOrZero : Obligations.GtWritesOneOrZero := by
  refine fun s d b c vb vc hb hc => ⟨fun hip => ?_, fun hip => ?_⟩
  · rw [exec, execGt, State.commit_writeBinary_of _ _ hb hc hip, boolWord_decide]
    rfl
  · exact usedSuccessorNeverWraps s (.gt (.register d) b c) (State.legal_binary_of_values d hb hc) rfl hip

end Sys2Proof.Machine
end

section
/-!
PROOF. The statements of 43_control_transfer.md: the three jumps, Call and Ret, with the next state of each and the fault of the
successor where it is used.
-/
namespace Sys2Proof.Machine

open Sys2Proof

/-! ## Conditional jumps -/

theorem condTrue_eq_true {v : Word} : condTrue v = true ↔ v ≠ 0 := by
  simp [condTrue, BitVec.toNat_eq]

theorem condTrue_eq_false {v : Word} : condTrue v = false ↔ v = 0 := by
  simp [condTrue, BitVec.toNat_eq]

section
variable {s : State} {a b : Operand} {va vb : Word}

/-- After its operands, a conditional jump is its target or the successor (43_control_transfer.md R193, R196). -/
theorem State.branch_of (taken : Word → Bool) (ha : s.operandValue a = some va) (hb : s.operandValue b = some vb) :
    s.branch a b taken = if taken va then .ok (s.setIp vb) else (s.successor 2).map s.setIp := by
  simp only [State.branch, State.resolve_of_value 0 ha, State.resolve_of_value 1 hb, bind, Except.bind]
  cases s.successor 2 <;> rfl

/-- The three ends of a conditional jump: taken, not taken, and not taken at the last address (43_control_transfer.md R193,
R196). -/
theorem State.commit_branch_of (i : Instr) (taken : Word → Bool) (ha : s.operandValue a = some va)
    (hb : s.operandValue b = some vb) :
    (taken va = true → s.commit i (s.branch a b taken) = .next (s.setIp vb)) ∧
    (taken va = false → s.ip.toNat + 3 ≤ 65535 →
      s.commit i (s.branch a b taken) = .next (s.setIp (BitVec.ofNat 16 (s.ip.toNat + 3)))) ∧
    (taken va = false → s.ip.toNat + 3 = 65536 →
      s.commit i (s.branch a b taken) = .next (s.raise i (.invalidAddress 65536))) := by
  rw [State.branch_of taken ha hb]
  refine ⟨fun htaken => ?_, fun hnot hip => ?_, fun hnot hip => ?_⟩
  · rw [htaken, if_pos rfl, State.commit_ok]
  · rw [hnot, State.successor_of_le (n := 2) hip]
    rfl
  · rw [hnot, State.successor_of_gt (n := 2) hip.ge]
    rfl

/-! ## The effects of Call and Ret -/

/-- After its operand and its successor, Call is the push of the return address with its capacity check, and the jump
(43_control_transfer.md R200). -/
theorem State.callEffect_of (ha : s.operandValue a = some va) (hip : s.ip.toNat + 2 ≤ 65535) :
    s.callEffect a = (s.pushChecked (BitVec.ofNat 16 (s.ip.toNat + 2))).map (State.setIp · va) := by
  simp only [State.callEffect, State.resolve_of_value 0 ha, State.successor_of_le (n := 1) hip, bind, Except.bind]
  cases s.pushChecked _ <;> rfl

theorem State.retEffect_of_cons {v : Word} {rest : List Word} (hstack : s.stack = v :: rest) :
    s.retEffect = .ok (s.dropTop.setIp v) := by
  rw [State.retEffect, hstack]

theorem State.retEffect_of_nil (hstack : s.stack = []) : s.retEffect = s.haltEffect := by
  rw [State.retEffect, hstack]

end

/-! ## Jmp, JmpIfTrue, JmpIfFalse, Call and Ret -/

/-- Settles O20: a legal operand is all that Jmp needs. -/
theorem jmpSetsIp : Obligations.JmpSetsIp := by
  refine fun s a va ha => ⟨rfl, ?_⟩
  rw [exec, execJmp, State.resolve_of_value 0 ha]
  rfl

/-- Settles O21: the conditional jump that is taken on every value but 0. -/
theorem jmpIfTrueTestsForNonzero : Obligations.JmpIfTrueTestsForNonzero := by
  intro s a b va vb ha hb
  obtain ⟨htaken, hnext, hlast⟩ := State.commit_branch_of (.jmpIfTrue a b) condTrue ha hb
  exact ⟨fun hne => htaken (condTrue_eq_true.2 hne), fun hzero => hnext (condTrue_eq_false.2 hzero),
    fun hzero => hlast (condTrue_eq_false.2 hzero)⟩

/-- Settles O22: the conditional jump that is taken on 0 only. -/
theorem jmpIfFalseTestsForZero : Obligations.JmpIfFalseTestsForZero := by
  intro s a b va vb ha hb
  obtain ⟨htaken, hnext, hlast⟩ := State.commit_branch_of (.jmpIfFalse a b) (fun v => !condTrue v) ha hb
  simp only [Bool.not_eq_true', Bool.not_eq_false'] at htaken hnext hlast
  exact ⟨fun hzero => htaken (condTrue_eq_false.2 hzero), fun hne => hnext (condTrue_eq_true.2 hne),
    fun hne => hlast (condTrue_eq_true.2 hne)⟩

/-- Settles O23: the capacity check decides where the successor is an address. -/
theorem callPushesTheReturnAddress : Obligations.CallPushesTheReturnAddress := by
  refine fun s a va ha => ⟨fun hip hroom => ?_, fun hip hfull => ?_, fun hip => ?_⟩
  · rw [exec, execCall, State.callEffect_of ha hip, State.pushChecked_of_lt _ hroom]
    rfl
  · rw [exec, execCall, State.callEffect_of ha hip, State.pushChecked_of_ge _ hfull.ge]
    rfl
  · exact usedSuccessorNeverWraps s (.call a) (State.readable_of_value ha) rfl hip

/-- Settles O24: the popped value is the target, and an empty stack is the effect of Halt. -/
theorem retPopsOrHalts : Obligations.RetPopsOrHalts := by
  refine fun s => ⟨fun v rest hstack => ?_, fun hstack hip => ?_, fun hstack hip => ?_⟩
  · rw [exec, execRet, State.retEffect_of_cons hstack, State.commit_ok, State.dropTop, hstack]
    rfl
  · rw [exec, execRet, State.retEffect_of_nil hstack, State.haltEffect_of_le hip]
    rfl
  · rw [exec, execRet, State.retEffect_of_nil hstack, State.haltEffect_of_gt hip.ge]
    rfl

/-- Settles O25: Ret pops the return address that Call pushed. -/
theorem callThenRetReturns : Obligations.CallThenRetReturns := by
  intro s a va ha hip hroom
  obtain ⟨hcall, -, -⟩ := callPushesTheReturnAddress s a va ha
  refine ⟨_, hcall hip hroom, rfl, fun u hstack => ?_⟩
  obtain ⟨hpop, -, -⟩ := retPopsOrHalts u
  exact hpop _ _ hstack

end Sys2Proof.Machine
end

section
/-!
PROOF. The statements of 44_alu.md: the six instructions, each one of the two shapes that write a register with its own value, and
the laws of R240, which follow from what each writes.
-/
namespace Sys2Proof.Machine

open Sys2Proof

/-! ## The values -/

/-- The 15-bit mask is the remainder mod 2^15 (44_alu.md R230). -/
theorem mask15_toNat (v : Word) : (mask15 v).toNat = v.toNat % 32768 := by
  rw [mask15, BitVec.toNat_and]
  exact Nat.and_two_pow_sub_one_eq_mod v.toNat 15

theorem mask15_le (v : Word) : (mask15 v).toNat ≤ 32767 := by
  rw [mask15_toNat]
  omega

/-- A number reduced mod 32768 is a word of the 15-bit domain (44_alu.md R221, R224). -/
theorem ofNat_mod_le (n : Nat) : (BitVec.ofNat 16 (n % 32768)).toNat ≤ 32767 := by
  rw [BitVec.toNat_ofNat]
  omega

/-- The two forms of R236: the masked complement is 32767 less the low 15 bits. -/
theorem mask15_not (v : Word) : mask15 (~~~v) = BitVec.ofNat 16 (32767 - v.toNat % 32768) := by
  apply BitVec.eq_of_toNat_eq
  rw [mask15_toNat, BitVec.toNat_not, BitVec.toNat_ofNat]
  have := v.isLt
  omega

theorem modWord_of_ne {v w : Word} (hw : w ≠ 0) : modWord v w = .ok (BitVec.ofNat 16 (v.toNat % w.toNat)) :=
  if_neg fun hzero => hw (BitVec.eq_of_toNat_eq hzero)

theorem modWord_zero (v : Word) : modWord v 0 = .error .divideByZero := rfl

section
variable {s t : State} {d : Fin 8} {b c : Operand} {vb vc v : Word}

/-! ## The shapes `dst, R, R` and `dst, R` -/

/-- At the last addresses an instruction of the shape `dst, R, R` faults, whatever it computes (44_alu.md R227). -/
theorem State.commit_writeBinary_of_gt (i : Instr) (f : Word → Word → Except Trap Word) (hb : s.operandValue b = some vb)
    (hc : s.operandValue c = some vc) (hip : s.ip.toNat + 4 = 65536) :
    s.commit i (s.writeBinary (.register d) b c f) = .next (s.enterFault (encode i) (.invalidAddress 65536)) := by
  rw [State.writeBinary_of_gt (State.legal_binary_of_values d hb hc) hip.ge]
  rfl

/-- An instruction of the shape `dst, R, R` with no fault of its own, at every IP a fetched one can stand at. -/
theorem State.commit_writeBinary_cases (i : Instr) (f : Word → Word → Word) (hb : s.operandValue b = some vb)
    (hc : s.operandValue c = some vc) :
    (s.ip.toNat + 4 ≤ 65535 → s.commit i (s.writeBinary (.register d) b c fun v w => .ok (f v w)) =
      .next ((s.setReg d (f vb vc)).setIp (BitVec.ofNat 16 (s.ip.toNat + 4)))) ∧
    (s.ip.toNat + 4 = 65536 → s.commit i (s.writeBinary (.register d) b c fun v w => .ok (f v w)) =
      .next (s.enterFault (encode i) (.invalidAddress 65536))) :=
  ⟨State.commit_writeBinary_of i f hb hc, State.commit_writeBinary_of_gt i _ hb hc⟩

/-- An instruction that wrote a register and advanced left the written word in that register. -/
theorem getReg_of_next {x : Result} {n : Word} (hx : x = .next ((s.setReg d v).setIp n)) (ht : x = .next t) :
    t.getReg d = v := by
  obtain rfl : (s.setReg d v).setIp n = t := Host.Outcome.next.inj (hx.symm.trans ht)
  exact State.getReg_setReg_same s d v

end

/-! ## The six instructions -/

/-- Settles O28: the shape `dst, R, R` with the sum mod 32768 as the value. -/
theorem addWritesTheSumMod32768 : Obligations.AddWritesTheSumMod32768 :=
  fun _ d b c _ _ hb hc => State.commit_writeBinary_cases (.add (.register d) b c) addMod hb hc

/-- Settles O29: the shape `dst, R, R` with the product mod 32768 as the value. -/
theorem multWritesTheProductMod32768 : Obligations.MultWritesTheProductMod32768 :=
  fun _ d b c _ _ hb hc => State.commit_writeBinary_cases (.mult (.register d) b c) multMod hb hc

/-- Settles O30: the divisor decides where the successor is an address. -/
theorem modWritesTheRemainderOrFaults : Obligations.ModWritesTheRemainderOrFaults := by
  refine fun s d b c vb vc hb hc => ⟨fun hip hne => ?_, fun hip hzero => ?_, fun hip => ?_⟩
  · rw [exec, execMod, State.writeBinary_of hb hc hip, modWord_of_ne hne]
    rfl
  · rw [exec, execMod, State.writeBinary_of hb hc hip, hzero, modWord_zero]
    rfl
  · exact State.commit_writeBinary_of_gt (.mod (.register d) b c) modWord hb hc hip

/-- Settles O31: the shape `dst, R, R` with the masked bitwise and as the value. -/
theorem andWritesTheMaskedAnd : Obligations.AndWritesTheMaskedAnd :=
  fun _ d b c _ _ hb hc => State.commit_writeBinary_cases (.and (.register d) b c) (fun v w => mask15 (v &&& w)) hb hc

/-- Settles O32: the shape `dst, R, R` with the masked bitwise or as the value. -/
theorem orWritesTheMaskedOr : Obligations.OrWritesTheMaskedOr :=
  fun _ d b c _ _ hb hc => State.commit_writeBinary_cases (.or (.register d) b c) (fun v w => mask15 (v ||| w)) hb hc

/-- Settles O33: the shape `dst, R` with the masked complement, in the rule's arithmetic form. -/
theorem notComplementsFifteenBits : Obligations.NotComplementsFifteenBits := by
  refine fun s d b vb hb => ⟨fun hip => ?_, fun hip => ?_⟩
  · rw [exec, execNot, State.writeUnary_of hb hip, ← mask15_not]
    rfl
  · exact usedSuccessorNeverWraps s (.not (.register d) b) (State.readable_of_value hb) rfl hip

/-! ## The laws -/

/-- Settles O34: each law is about the word the instruction is known to write. -/
theorem aluLaws : Obligations.AluLaws := by
  intro s t d b c vb vc hb hc hip
  obtain ⟨hadd, -⟩ := addWritesTheSumMod32768 s d b c vb vc hb hc
  obtain ⟨haddSwap, -⟩ := addWritesTheSumMod32768 s d c b vc vb hc hb
  obtain ⟨hmult, -⟩ := multWritesTheProductMod32768 s d b c vb vc hb hc
  obtain ⟨hmultSwap, -⟩ := multWritesTheProductMod32768 s d c b vc vb hc hb
  obtain ⟨hmod, -, -⟩ := modWritesTheRemainderOrFaults s d b c vb vc hb hc
  obtain ⟨hand, -⟩ := andWritesTheMaskedAnd s d b c vb vc hb hc
  obtain ⟨hor, -⟩ := orWritesTheMaskedOr s d b c vb vc hb hc
  obtain ⟨hnot, -⟩ := notComplementsFifteenBits s d b vb hb
  obtain ⟨heq, -⟩ := eqWritesOneOrZero s d b c vb vc hb hc
  obtain ⟨hgt, -⟩ := gtWritesOneOrZero s d b c vb vc hb hc
  simp only [List.forall_mem_cons, List.not_mem_nil, false_implies, implies_true, and_true]
  refine ⟨?_, ?_, ⟨fun ht => ?_, fun ht => ?_, fun ht => ?_, fun ht => ?_, fun ht => ?_⟩, fun hvb hne ht => ?_,
    fun ht => ?_, fun ht => ?_⟩
  · rw [hadd hip, haddSwap hip, Nat.add_comm]
  · rw [hmult hip, hmultSwap hip, Nat.mul_comm]
  · rw [getReg_of_next (hadd hip) ht]
    exact ofNat_mod_le _
  · rw [getReg_of_next (hmult hip) ht]
    exact ofNat_mod_le _
  · rw [getReg_of_next (hand hip) ht]
    exact mask15_le _
  · rw [getReg_of_next (hor hip) ht]
    exact mask15_le _
  · rw [getReg_of_next (hnot (by omega)) ht, ← mask15_not]
    exact mask15_le _
  · rw [getReg_of_next (hmod hip hne) ht, BitVec.toNat_ofNat]
    exact (Nat.mod_le _ _).trans ((Nat.mod_le _ _).trans hvb)
  · rw [getReg_of_next (heq hip) ht]
    exact (ite_eq_or_eq _ _ _).symm
  · rw [getReg_of_next (hgt hip) ht]
    exact (ite_eq_or_eq _ _ _).symm

end Sys2Proof.Machine
end

section
/-!
PROOF. The statements of 45_memory_ops.md: RMem, whose value is what `MemRead` gives at its address, and WMem, whose effect is one
write of memory.
-/
namespace Sys2Proof.Machine

open Sys2Proof

/-! ## The data read -/

section
variable {s : State} {a v : Word}

theorem State.loadWord_of_some (h : s.memRead a.toNat = some v) : s.loadWord a = .ok v := by
  rw [State.loadWord, h]

theorem State.loadWord_of_none (h : s.memRead a.toNat = none) : s.loadWord a = .error (.invalidAddress a.toNat) := by
  rw [State.loadWord, h]

end

/-! ## RMem and WMem -/

/-- Settles O35: the data read decides where the successor is an address. -/
theorem rMemLoadsTheWord : Obligations.RMemLoadsTheWord := by
  refine fun s d b vb hb => ⟨fun v hread hip => ?_, fun hunset hip => ?_, fun hip => ?_⟩
  · rw [exec, execRMem, State.writeUnary_of hb hip, State.loadWord_of_some hread]
    rfl
  · rw [exec, execRMem, State.writeUnary_of hb hip, State.loadWord_of_none hunset]
    rfl
  · exact usedSuccessorNeverWraps s (.rMem (.register d) b) (State.readable_of_value hb) rfl hip

/-- Settles O36: operands that resolve are legal, so that only the successor can fault. -/
theorem wMemStoresTheWord : Obligations.WMemStoresTheWord := by
  refine fun s a b va vb ha hb => ⟨exec_wMem_of ha hb, fun hip => ?_⟩
  have hlegal : (Instr.wMem a b).wellFormed = true :=
    Bool.and_eq_true_iff.2 ⟨State.readable_of_value ha, State.readable_of_value hb⟩
  exact usedSuccessorNeverWraps s (.wMem a b) hlegal rfl hip

end Sys2Proof.Machine
end

section
/-!
PROOF. The statements of 46_io.md: Out and In by the operand, the successor, IB and the host's answers; what the two leave alone; and
the answer that ends the wait of an `In`.
-/
namespace Sys2Proof.Machine

open Sys2Proof

/-! ## The effects of Out and In -/

section
variable {s : State} {d : Fin 8}

theorem State.outEffect_of {a : Operand} {va : Word} (ha : s.operandValue a = some va) (hip : s.ip.toNat + 2 ≤ 65535) :
    s.outEffect a = .ok ((s.emit (lowByte va)).setIp (BitVec.ofNat 16 (s.ip.toNat + 2))) := by
  rw [State.outEffect, State.resolve_of_value 0 ha, State.successor_of_le (n := 1) hip]
  rfl

/-- While a line is buffered an `In` delivers its next byte and makes no request (46_io.md R271, R272). -/
theorem execIn_of_cons {b : Byte} {rest : List Byte} (hib : s.ib = b :: rest) (hip : s.ip.toNat + 2 ≤ 65535) :
    execIn (.register d) s = .next (s.deliver d (BitVec.ofNat 16 (s.ip.toNat + 2)) b rest) := by
  simp only [execIn, State.inputTarget_of hip, hib]

/-- With IB empty an `In` makes its request and takes what the host has ready (46_io.md R270). -/
theorem execIn_of_nil (hib : s.ib = []) (hip : s.ip.toNat + 2 ≤ 65535) :
    execIn (.register d) s =
      .next (s.requestLine.receive (.input (.register d)) d (BitVec.ofNat 16 (s.ip.toNat + 2))) := by
  simp only [execIn, State.inputTarget_of hip, hib]

theorem State.requestLine_eq (s : State) :
    s.requestLine = { s with
      waitInput := true
      lineRequests := if s.waitInput then s.lineRequests else s.lineRequests + 1 } := by
  unfold State.requestLine
  split
  · rename_i hwait; simp only [← hwait]
  · rfl

theorem State.takeAnswer_of_cons {ans : Answer} {more : List Answer} (hans : s.answers = ans :: more) :
    s.takeAnswer = { s with answers := more } := by
  rw [State.takeAnswer, hans, List.tail_cons]

theorem State.receive_of_nil {i : Instr} {n : Word} (hans : s.answers = []) : s.receive i d n = s := by
  simp only [State.receive, hans]

theorem State.receive_of_line {i : Instr} {n : Word} {b : Byte} {rest : List Byte} {more : List Answer}
    (hans : s.answers = .line (b :: rest) :: more) : s.receive i d n = s.takeAnswer.deliver d n b rest := by
  simp only [State.receive, hans]

/-- EOF and a zero-length line end the input alike (46_io.md R275). -/
theorem State.receive_of_end {i : Instr} {n : Word} {more : List Answer}
    (hans : s.answers = .eof :: more ∨ s.answers = .line [] :: more) :
    s.receive i d n = s.takeAnswer.raise i .inputEOF := by
  rcases hans with hans | hans <;> simp only [State.receive, hans]

end

/-! ## Out and In -/

/-- Settles O38: the two cases of the successor. -/
theorem outEmitsTheLowByte : Obligations.OutEmitsTheLowByte := by
  refine fun s a va ha => ⟨fun hip => ?_, fun hip => ?_⟩
  · rw [exec, execOut, State.outEffect_of ha hip]
    rfl
  · exact usedSuccessorNeverWraps s (.out a) (State.readable_of_value ha) rfl hip

/-- Settles O39: the byte comes from the buffer. -/
theorem inDeliversTheHeadByte : Obligations.InDeliversTheHeadByte := by
  intro s d b rest hib hip
  rw [exec, execIn_of_cons hib hip]
  rfl

/-- Settles O40: the successor is checked first, and the first ready answer decides what the request comes to. -/
theorem inRequestsALineWhenTheBufferIsEmpty : Obligations.InRequestsALineWhenTheBufferIsEmpty := by
  refine fun s d => ⟨fun hip => usedSuccessorNeverWraps s (.input (.register d)) rfl rfl hip, fun hip hib => ?_⟩
  rw [exec, execIn_of_nil hib hip]
  refine ⟨fun hans => ?_, fun b rest more hans => ?_, fun more hans => ?_⟩ <;> rw [← s.requestLine_answers] at hans
  · rw [State.receive_of_nil hans, State.requestLine_eq]
  · rw [State.receive_of_line hans, State.takeAnswer_of_cons hans, State.requestLine_eq]
    rfl
  · rw [State.receive_of_end hans, hans.elim State.takeAnswer_of_cons State.takeAnswer_of_cons, State.requestLine_eq]
    rfl

/-! ## The frame -/

/-- STATE and the fault record change by a fault and by a halt alone, the faults on the input port among them. -/
theorem Effect.engine_fault_cases {i : Instr} {s t : State} (h : Effect i s t) (htag : i.tag ∉ [Tag.halt, .ret]) :
    t.engine = s.engine ∧ t.fault = s.fault ∨ s.FaultEntered t := by
  cases h with
  | fault tr => exact .inr (s.faultEntered_raise i tr)
  | eof => exact .inr (by simpa [State.FaultEntered] using s.requestLine.takeAnswer.faultEntered_raise i .inputEOF)
  | halt n hi => rcases hi with rfl | ⟨rfl, -⟩ <;> simp [Instr.tag] at htag
  | _ => left; simp [State.deliver]

/-- Settles O45: Out has no effect but its byte and a fault, and In none but on its destination, the input side and WAIT_INPUT. -/
theorem portFrame : Obligations.PortFrame := by
  refine fun a s t => ⟨fun hexec => ?_, fun hexec => ?_⟩
  · have he : Effect (.out a) s t := exec_effect hexec
    obtain ⟨hib, hreq, hans⟩ := he.inputSide_eq (by simp [Instr.tag])
    refine ⟨?_, fun x => by rw [he.mem_eq (by simp [Instr.tag])], ?_, he.sameHostSide, hib, hreq, hans, ?_⟩
    · exact he.regs_cases.resolve_right (by simp [registerTags, Instr.tag])
    · exact he.stack_cases.resolve_right (by simp [Instr.tag])
    · simpa using he.status_cases (by simp [Instr.tag])
  · have he : Effect (.input a) s t := exec_effect hexec
    refine ⟨fun k hk => he.getReg_eq fun hd => ?_, fun x => by rw [he.mem_eq (by simp [Instr.tag])], ?_, he.sameHostSide, ?_,
      he.engine_fault_cases (by simp [Instr.tag])⟩
    · exact absurd (Option.some.inj hd) hk
    · exact he.stack_cases.resolve_right (by simp [Instr.tag])
    · exact he.output_cases.resolve_right (by simp [Instr.tag])

/-! ## The end of a step -/

section
variable {s : State}

/-- A single step whose instruction has completed in Running ends in Paused (60_exceptions.md R335). -/
theorem settleResult_of_running {r : Result} (h : r = .next s) (hwait : s.waitInput = false) (hrun : s.engine = .running) :
    settleResult r = .next { s with singleStep := false, engine := if s.singleStep then .paused else .running } := by
  rw [h, settleResult, State.settle]
  cases hsingle : s.singleStep with
  | true => simp [hwait, hrun]
  | false => rw [if_neg (by simp), if_neg (by simp), ← hsingle, ← hrun]

/-- A single step that ended the run keeps the STATE it ended in (60_exceptions.md R335). -/
theorem settleResult_of_stopped {r : Result} (h : r = .next s) (hwait : s.waitInput = false) (hstop : s.engine ≠ .running) :
    settleResult r = .next { s with singleStep := false } := by
  rw [h, settleResult, State.settle]
  cases hsingle : s.singleStep with
  | true => simp [hwait, hstop]
  | false => rw [if_neg (by simp), ← hsingle]

/-! ## The turn that answers -/

theorem step_of_hostAction {action : HostAction} {hs : List (Option HostAction)} (hhost : s.host = some action :: hs) :
    step s = State.hostTurn { s with host := hs } action := by
  simp only [step, State.turn, hhost]

/-- An answer, given by the host at this turn or ready at the engine's own, is the first one the waiting instruction finds when it
runs again (46_io.md R274). -/
theorem step_of_answer {ans : Answer} {hs : List (Option HostAction)} {more : List Answer} (hrun : s.engine = .running)
    (hwait : s.waitInput = true)
    (hgiven : s.host = some (.answer ans) :: hs ∧ more = s.answers ∨
      s.engineMoves ∧ hs = s.host.tail ∧ s.answers = ans :: more) :
    step s = settleResult (State.runInstruction { s with host := hs, answers := ans :: more }) := by
  obtain ⟨hhost, rfl⟩ | ⟨hmoves, rfl, hans⟩ := hgiven
  · rw [step_of_hostAction hhost]
    exact if_pos ⟨hrun, hwait⟩
  · have hfree : s.blocked = none := by simp [State.blocked, hrun, hans]
    rw [step, State.turn_of_engineMoves hmoves hfree, ← hans]
    exact if_pos hwait

/-- Where the two words of an `In` stand at IP, a whole step is that `In`. -/
theorem State.runInstruction_of_input {d : Fin 8} (hop : s.memRead s.ip.toNat = some 20)
    (hdst : s.memRead (s.ip.toNat + 1) = some (BitVec.ofNat 16 (32768 + d.val))) :
    s.runInstruction = exec (.input (.register d)) s := by
  have hdecode : decode (encode (.input (.register d)) ++ []) = .ok (.input (.register d), []) :=
    decode_encode [] (Instr.classed_of_wellFormed rfl)
  exact State.runInstruction_decoded hdecode rfl
    (State.holdsWords_cons.2 ⟨hop, State.holdsWords_cons.2 ⟨hdst, s.holdsWords_nil _⟩⟩)

end

/-- Settles O41: the `In` runs again with the answer ready and its request still counted, and the end of its single step follows. -/
theorem anAnswerEndsTheWait : Obligations.AnAnswerEndsTheWait := by
  refine ⟨fun s d hrun hwait hib hop hdst hip ans hs more hgiven => ?_, fun s line hs hhost => step_of_hostAction hhost,
    fun s ans hs hhost hnone => ?_⟩
  · have hstep : step s = settleResult (exec (.input (.register d)) { s with host := hs, answers := ans :: more }) :=
      (step_of_answer hrun hwait hgiven).trans (congrArg settleResult (State.runInstruction_of_input hop hdst))
    obtain ⟨-, hline, hend⟩ :=
      (inRequestsALineWhenTheBufferIsEmpty { s with host := hs, answers := ans :: more } d).2 hip hib
    refine ⟨fun b rest hans => ?_, fun hans => ?_⟩
    · have hnext := hline b rest more (congrArg (· :: more) hans)
      rw [hstep, settleResult_of_running hnext rfl hrun, if_pos hwait]
    · have hnext := hend more (hans.imp (congrArg (· :: more)) (congrArg (· :: more)))
      rw [hstep, settleResult_of_stopped hnext rfl (by simp), if_pos hwait]
      rfl
  · rw [step_of_hostAction hhost]
    exact if_neg fun hwaits => hnone.elim (· hwaits.1) (Bool.eq_false_iff.1 · hwaits.2)

end Sys2Proof.Machine
end

section
/-!
PROOF. The statements of 60_exceptions.md: what a fault changes, the breakpoint check, and the calls of the inspection port.
-/
namespace Sys2Proof.Machine

open Sys2Proof

/-! ## The words of a fault -/

section
variable {s t : State}

theorem State.holdsWords_append {addr : Nat} {os os' : List Word} :
    s.holdsWords addr (os ++ os') ↔ s.holdsWords addr os ∧ s.holdsWords (addr + os.length) os' := by
  induction os generalizing addr with
  | nil => exact ⟨fun h => ⟨s.holdsWords_nil addr, h⟩, And.right⟩
  | cons w os ih =>
    rw [List.cons_append, State.holdsWords_cons, State.holdsWords_cons, ih, and_assoc, List.length_cons,
      Nat.add_right_comm, Nat.add_assoc addr]

theorem State.holdsWords_singleton {addr : Nat} {w : Word} : s.holdsWords addr [w] ↔ s.memRead addr = some w :=
  State.holdsWords_cons.trans (and_iff_left (s.holdsWords_nil _))

/-- A fault of the fetch comes with the words that stand in memory at IP, none only where the opcode cell cannot be read. -/
theorem State.fetch_error_words {f : FetchFault} (h : s.fetch = .error f) :
    s.holdsWords s.ip.toNat f.words ∧ (f.words = [] ↔ s.memRead s.ip.toNat = none) := by
  unfold State.fetch at h
  split at h
  · rename_i hnone
    cases h
    exact ⟨s.holdsWords_nil _, by simp [hnone]⟩
  · rename_i op hop
    split at h
    · cases h
      exact ⟨State.holdsWords_singleton.2 hop, by simp [hop]⟩
    · obtain ⟨os, -, hold, ⟨rfl, -⟩ | ⟨w, hw, rfl⟩⟩ := State.fetchOperands_error h
      · exact ⟨State.holdsWords_cons.2 ⟨hop, hold⟩, by simp [hop]⟩
      · exact ⟨State.holdsWords_cons.2 ⟨hop, State.holdsWords_append.2 ⟨hold, State.holdsWords_singleton.2 hw⟩⟩,
          by simp [hop]⟩

/-- The words of a delivered fetch stand in memory at IP. -/
theorem State.fetch_ok_words {ws : List Word} (h : s.fetch = .ok ws) : s.holdsWords s.ip.toNat ws := by
  obtain ⟨op, _, os, rfl, hop, -, -, hold, -⟩ := State.fetch_ok h
  exact State.holdsWords_cons.2 ⟨hop, hold⟩

/-- The fetch lets legal operands through only, so that the instruction it delivers is well formed (30_encoding.md R100). -/
theorem State.wellFormed_of_fetch {ws : List Word} {i : Instr} (hf : s.fetch = .ok ws) (hd : decode ws = .ok (i, [])) :
    i.wellFormed = true := by
  obtain ⟨op, g, os, rfl, -, hg, -, -, hlegal⟩ := State.fetch_ok hf
  obtain ⟨op', os', hws, htag, hops⟩ := decode_ok hd
  rw [List.append_nil] at hws
  obtain ⟨rfl, rfl⟩ := List.cons.inj hws
  obtain rfl : g = i.tag := Option.some.inj (hg.symm.trans htag)
  rw [wellFormed_eq_accepts, hops, List.zip_map_right, List.all_map]
  exact hlegal

end

/-! ## The faults of a well-formed instruction -/

/-- The computation raises no InvalidOperand, and what it answers meets `P`. -/
def NoOperandFault {α : Type} (P : α → Prop) (x : Except Trap α) : Prop :=
  (∀ v, x = .ok v → P v) ∧ ∀ k, x ≠ .error (.invalidOperand k)

/-- The computation raises no InvalidOperand, and the state it answers is not Faulted. -/
abbrev CommitsLegally (x : Except Trap State) : Prop := NoOperandFault (fun t => t.engine ≠ .faulted) x

section
variable {α β : Type} {P : α → Prop} {s : State}

theorem NoOperandFault.ok {v : α} (h : P v) : NoOperandFault P (.ok v) :=
  ⟨fun _ hv => Except.ok.inj hv ▸ h, fun _ hk => by cases hk⟩

theorem NoOperandFault.error {tr : Trap} (h : ∀ k, tr ≠ .invalidOperand k) : NoOperandFault P (.error tr) :=
  ⟨fun _ hv => (by cases hv), fun k hk => h k (Except.error.inj hk)⟩

theorem NoOperandFault.bind {x : Except Trap β} {f : β → Except Trap α} (hx : ∀ k, x ≠ .error (.invalidOperand k))
    (hf : ∀ v, x = .ok v → NoOperandFault P (f v)) : NoOperandFault P (x >>= f) := by
  cases x with
  | ok v => exact hf v rfl
  | error tr => exact .error fun k hk => hx k (congrArg _ hk)

theorem NoOperandFault.read {k : Nat} {o : Operand} {f : Word → Except Trap α} (ho : o.readable = true)
    (hf : ∀ v, NoOperandFault P (f v)) : NoOperandFault P (s.resolve k o >>= f) :=
  .bind (fun _ h => by simp [(State.resolve_error h).2] at ho) fun v _ => hf v

theorem NoOperandFault.write {k : Nat} {o : Operand} {f : Fin 8 → Except Trap α} (ho : o.writable = true)
    (hf : ∀ d, NoOperandFault P (f d)) : NoOperandFault P (dstReg k o >>= f) :=
  .bind (fun _ h => by simp [(dstReg_error h).2] at ho) fun d _ => hf d

theorem NoOperandFault.next {n : Nat} {f : Word → Except Trap α} (hf : ∀ v, NoOperandFault P (f v)) :
    NoOperandFault P (s.successor n >>= f) :=
  .bind (fun _ h => by cases State.successor_error h) fun v _ => hf v

end

section
variable {s : State} {a b c : Operand}

theorem modWord_ne_invalidOperand (v w : Word) (k : Nat) : modWord v w ≠ .error (.invalidOperand k) := by
  unfold modWord
  split <;> simp

theorem State.loadWord_ne_invalidOperand (a : Word) (k : Nat) : s.loadWord a ≠ .error (.invalidOperand k) := by
  unfold State.loadWord
  split <;> simp

theorem State.pushChecked_ne_invalidOperand (v : Word) (k : Nat) : s.pushChecked v ≠ .error (.invalidOperand k) := by
  unfold State.pushChecked
  split <;> simp

theorem State.haltEffect_commitsLegally : CommitsLegally s.haltEffect :=
  have hadvance : NoOperandFault (fun _ => True) s.advance := .next fun _ => .ok trivial
  .bind hadvance.2 fun _ _ => .ok (by simp)

variable (hs : s.engine ≠ .faulted)
include hs

theorem State.writeUnary_commitsLegally {f : Word → Except Trap Word} (hlegal : (a.writable && b.readable) = true)
    (hf : ∀ v k, f v ≠ .error (.invalidOperand k)) :
    CommitsLegally (s.writeUnary a b f) := by
  obtain ⟨ha, hb⟩ := Bool.and_eq_true_iff.1 hlegal
  exact .write ha fun _ => .read hb fun v => .next fun _ => .bind (hf v) fun _ _ => .ok hs

theorem State.writeBinary_commitsLegally {f : Word → Word → Except Trap Word}
    (hlegal : (a.writable && b.readable && c.readable) = true) (hf : ∀ v w k, f v w ≠ .error (.invalidOperand k)) :
    CommitsLegally (s.writeBinary a b c f) := by
  obtain ⟨hab, hc⟩ := Bool.and_eq_true_iff.1 hlegal
  obtain ⟨ha, hb⟩ := Bool.and_eq_true_iff.1 hab
  exact .write ha fun _ => .read hb fun v => .read hc fun w => .next fun _ => .bind (hf v w) fun _ _ => .ok hs

theorem State.branch_commitsLegally {taken : Word → Bool} (hlegal : (a.readable && b.readable) = true) :
    CommitsLegally (s.branch a b taken) := by
  obtain ⟨ha, hb⟩ := Bool.and_eq_true_iff.1 hlegal
  refine .read ha fun va => .read hb fun vb => ?_
  split
  · exact .ok hs
  · exact .next fun _ => .ok hs

/-- Once its operands are legal, no instruction raises InvalidOperand. In is apart: its wait is no commit. -/
theorem exec_commits_of_wellFormed {i : Instr} (hwf : i.wellFormed = true) (hin : i.tag ≠ .input) :
    ∃ x, exec i s = s.commit i x ∧ CommitsLegally x := by
  cases i with
  | halt => exact ⟨_, rfl, State.haltEffect_commitsLegally⟩
  | noop => exact ⟨_, rfl, .next fun _ => .ok hs⟩
  | set a b | not a b => exact ⟨_, rfl, State.writeUnary_commitsLegally hs hwf (by simp)⟩
  | rMem a b => exact ⟨_, rfl, State.writeUnary_commitsLegally hs hwf fun _ => State.loadWord_ne_invalidOperand _⟩
  | eq a b c | gt a b c | add a b c | mult a b c | and a b c | or a b c =>
    exact ⟨_, rfl, State.writeBinary_commitsLegally hs hwf (by simp)⟩
  | mod a b c => exact ⟨_, rfl, State.writeBinary_commitsLegally hs hwf modWord_ne_invalidOperand⟩
  | jmp a => exact ⟨_, rfl, .read hwf fun _ => .ok hs⟩
  | jmpIfTrue a b | jmpIfFalse a b => exact ⟨_, rfl, State.branch_commitsLegally hs hwf⟩
  | push a | call a =>
    refine ⟨_, rfl, .read hwf fun _ => .next fun _ => .bind (State.pushChecked_ne_invalidOperand _) fun _ ht => ?_⟩
    obtain ⟨-, rfl⟩ := State.pushChecked_ok ht
    exact .ok hs
  | pop a =>
    refine ⟨_, rfl, .write hwf fun _ => .next fun _ => ?_⟩
    split
    · exact .error (by simp)
    · exact .ok hs
  | ret =>
    refine ⟨_, rfl, ?_⟩
    unfold State.retEffect
    split
    · exact State.haltEffect_commitsLegally
    · exact .ok hs
  | wMem a b =>
    obtain ⟨ha, hb⟩ := Bool.and_eq_true_iff.1 hwf
    exact ⟨_, rfl, .read ha fun _ => .read hb fun _ => .next fun _ => .ok hs⟩
  | out a => exact ⟨_, rfl, .read hwf fun _ => .next fun _ => .ok hs⟩
  | input a => exact absurd rfl hin

end

/-! ## Precise faults -/

/-- The fault `tr` was entered with the words `ws` fetched, and nothing but the events of the input port has happened beside it,
these on InputEOF only (60_exceptions.md R310, 46_io.md R275). -/
structure State.FaultsWith (s t : State) (ws : List Word) (tr : Trap) : Prop where
  entered : t = { s.enterFault ws tr with answers := t.answers, lineRequests := t.lineRequests }
  ports : tr ≠ .inputEOF → t.answers = s.answers ∧ t.lineRequests = s.lineRequests

section
variable {s t : State}

theorem State.enterFault_faultsWith (s : State) (ws : List Word) (tr : Trap) : s.FaultsWith (s.enterFault ws tr) ws tr :=
  ⟨rfl, fun _ => ⟨rfl, rfl⟩⟩

theorem Trap.fetched_of_ne {tr : Trap} (htr : ∀ k, tr ≠ .invalidOperand k) (i : Instr) : tr.fetched i = encode i := by
  cases tr with
  | invalidOperand k => exact absurd rfl (htr k)
  | _ => rfl

/-- A fault that is not InvalidOperand is raised with all the words of its instruction. -/
theorem State.raise_faultsWith {tr : Trap} (htr : ∀ k, tr ≠ .invalidOperand k) (i : Instr) :
    s.FaultsWith (s.raise i tr) (encode i) tr := by
  rw [State.raise, Trap.fetched_of_ne htr]
  exact s.enterFault_faultsWith _ _

/-- The request and its answer, which InputEOF keeps, are the port's (46_io.md R275). -/
theorem State.requestLine_raise_faultsWith (i : Instr) :
    s.FaultsWith (s.requestLine.takeAnswer.raise i .inputEOF) (encode i) .inputEOF := by
  refine ⟨?_, fun h => absurd rfl h⟩
  rw [State.requestLine_eq]
  rfl

theorem execIn_faultsWith {a : Operand} (ha : a.writable = true) (hs : s.engine ≠ .faulted) (h : execIn a s = .next t)
    (ht : t.engine = .faulted) : ∃ tr, s.FaultsWith t (encode (.input a)) tr := by
  obtain ⟨tr, htr, rfl⟩ | ⟨d, rfl, -, ⟨b, rest, -, rfl⟩ | ⟨-, rfl⟩⟩ := execIn_cases h
  · have hlegal : NoOperandFault (fun _ => True) (s.inputTarget a) := .write ha fun _ => .next fun _ => .ok trivial
    exact ⟨tr, State.raise_faultsWith (fun k hk => hlegal.2 k (hk ▸ htr)) _⟩
  · exact absurd ht hs
  · obtain ⟨-, hw⟩ | ⟨b, rest, _, -, hl⟩ | he := s.requestLine.receive_cases (.input (.register d)) d
      (BitVec.ofNat 16 (s.ip.toNat + 2))
    · rw [hw, State.requestLine_engine] at ht
      exact absurd ht hs
    · rw [hl] at ht
      exact absurd (s.requestLine_engine ▸ ht) hs
    · rw [he]
      exact ⟨_, State.requestLine_raise_faultsWith _⟩

/-- A well-formed instruction that enters a fault has fetched all its words and does nothing else. -/
theorem exec_faultsWith {i : Instr} (hwf : i.wellFormed = true) (hs : s.engine ≠ .faulted) (h : exec i s = .next t)
    (ht : t.engine = .faulted) : ∃ tr, s.FaultsWith t (encode i) tr := by
  by_cases hin : i.tag = .input
  · cases i with
    | input a => exact execIn_faultsWith hwf hs h ht
    | _ => cases hin
  · obtain ⟨x, hx, hok, herror⟩ := exec_commits_of_wellFormed hs hwf hin
    obtain rfl | ⟨tr, rfl, rfl⟩ := State.commit_next (hx.symm.trans h)
    · exact absurd ht (hok t rfl)
    · exact ⟨tr, State.raise_faultsWith (fun k hk => herror k (congrArg _ hk)) i⟩

/-- A step that ends in Faulted has entered the fault of its fetch, or a fault of the instruction whose words are all fetched. -/
theorem State.runInstruction_faultsWith (hs : s.engine ≠ .faulted) (h : s.runInstruction = .next t)
    (ht : t.engine = .faulted) :
    (∃ f, s.fetch = .error f ∧ s.FaultsWith t f.words f.trap) ∨ ∃ ws tr, s.fetch = .ok ws ∧ s.FaultsWith t ws tr := by
  obtain ⟨f, hf, hr⟩ | ⟨ws, i, hf, hd, hr⟩ := s.runInstruction_cases
  · obtain rfl : s.enterFault f.words f.trap = t := Host.Outcome.next.inj (hr.symm.trans h)
    exact .inl ⟨f, hf, s.enterFault_faultsWith _ _⟩
  · obtain ⟨tr, hfaults⟩ := exec_faultsWith (State.wellFormed_of_fetch hf hd) hs (hr.symm.trans h) ht
    have hwords : encode i = ws := by simpa using encode_of_decode hd
    exact .inr ⟨ws, tr, hf, hwords ▸ hfaults⟩

end

/-- Settles O11: the fault is the fetch's, or it is raised by an instruction whose words are all fetched. -/
theorem faultsArePrecise : Obligations.FaultsArePrecise := by
  intro s t hrun hr ht
  have hs : s.engine ≠ .faulted := by simp [hrun]
  have hreport : t.report = some (.error t.fault) := by simp [State.report, ht]
  obtain ⟨f, hf, hfaults⟩ | ⟨ws, tr, hf, hfaults⟩ := State.runInstruction_faultsWith hs hr ht
  · obtain ⟨hheld, hnil⟩ := State.fetch_error_words hf
    refine ⟨f.words, f.trap, ?_, ?_, State.fetch_error_length_le hf, hheld, hnil, hfaults.ports, hreport⟩
    · refine hfaults.entered.trans ?_
      cases f.trap <;> rfl
    · rw [hf]
      exact ⟨rfl, rfl⟩
  · obtain ⟨op, g, os, rfl, hop, -, hlen, -, -⟩ := State.fetch_ok hf
    have harity := g.arity_le
    refine ⟨op :: os, tr, ?_, ?_, by rw [List.length_cons]; omega, State.fetch_ok_words hf, by simp [hop], hfaults.ports,
      hreport⟩
    · refine hfaults.entered.trans ?_
      cases tr <;> rfl
    · rw [hf]

/-! ## The boundary -/

section
variable {s t : State}

@[simp] theorem State.settle_skipBp (s : State) : s.settle.skipBp = s.skipBp := by unfold State.settle; split <;> rfl

/-- Outside a single step a whole instruction is the whole step. -/
theorem State.settleResult_runInstruction (hsingle : s.singleStep = false) :
    settleResult s.runInstruction = s.runInstruction := by
  obtain ⟨t, ht⟩ := s.runInstruction_next
  have hkept : t.singleStep = false := (State.runInstruction_sameHostSide ht).singleStep.trans hsingle
  rw [ht, settleResult, State.settle, if_neg (by simp [hkept])]

/-- In Running and with no `In` waiting, the engine's turn is at a boundary (40_engine.md R132). -/
theorem step_of_boundary (hmoves : s.engineMoves) (hrun : s.engine = .running) (hwait : s.waitInput = false) :
    step s = State.boundary { s with host := s.host.tail } := by
  have hfree : s.blocked = none := by simp [State.blocked, hrun, hwait]
  rw [step, State.turn_of_engineMoves hmoves hfree, State.engineTurn, if_neg (by simp [hwait])]

/-- With SKIP_BP = 0 a breakpoint and a pending pause come to the same Paused (60_exceptions.md R314, R336; log entry 12). -/
theorem State.boundary_stops (hskip : s.skipBp = false) (hstop : s.ip.toNat ∈ s.bp ∨ s.pausePending = true) :
    s.boundary = .next s.enterPaused := by
  obtain hbreak | hpause := hstop
  · simp [State.boundary, hskip, hbreak]
  · simp [State.boundary, hskip, hpause]

/-- A pending pause is taken at every boundary, which clears SKIP_BP (60_exceptions.md R314, R336). -/
theorem State.boundary_pauses (hpause : s.pausePending = true) :
    s.boundary = .next { s.enterPaused with skipBp := false } := by
  cases hskip : s.skipBp with
  | true => simp [State.boundary, hskip, hpause]
  | false =>
    have hsame : s.enterPaused = { s.enterPaused with skipBp := false } := by rw [← hskip]; rfl
    exact (State.boundary_stops hskip (.inr hpause)).trans (congrArg _ hsame)

/-- With SKIP_BP = 1 the boundary clears it, whatever follows (60_exceptions.md R336, 10_state.md R44). -/
theorem State.boundary_clears_skipBp (hskip : s.skipBp = true) (h : s.boundary = .next t) : t.skipBp = false := by
  cases hpause : s.pausePending with
  | true =>
    rw [State.boundary_pauses hpause] at h
    cases h
    rfl
  | false =>
    rw [State.boundary_passes hpause (.inl hskip)] at h
    obtain ⟨u, hu⟩ := State.runInstruction_next { s with skipBp := false }
    rw [hu] at h
    cases h
    rw [State.settle_skipBp, (State.runInstruction_sameHostSide hu).skipBp]

/-- A whole instruction of a Running engine does not pause. -/
theorem State.runInstruction_not_paused (hrun : s.engine = .running) (h : s.runInstruction = .next t) :
    t.engine ≠ .paused := by
  obtain hkept | ⟨he, -⟩ | ⟨he, -⟩ := State.runInstruction_engine h
  · simp [hkept, hrun]
  · simp [he]
  · simp [he]

end

/-- Settles O56: the boundary breaks, or its instruction runs with SKIP_BP = 0. -/
theorem breakpointPausesBeforeTheFetch : Obligations.BreakpointPausesBeforeTheFetch := by
  intro s hmoves hrun hwait
  have hstep := step_of_boundary hmoves hrun hwait
  refine ⟨fun hskip hbreak => ?_, fun hskip t ht => ?_, fun hpass hpause => ?_⟩
  · exact hstep.trans (State.boundary_stops (s := { s with host := s.host.tail }) hskip (.inl hbreak))
  · exact State.boundary_clears_skipBp (s := { s with host := s.host.tail }) hskip (hstep.symm.trans ht)
  · have hruns := step_of_ready ⟨hmoves, hrun, hwait, hpause, hpass⟩
    have halone (hsingle : s.singleStep = false) : step s = s.atInstruction.runInstruction :=
      hruns.trans (State.settleResult_runInstruction (s := s.atInstruction) hsingle)
    exact ⟨hruns, halone, fun hsingle t ht =>
      State.runInstruction_not_paused (s := s.atInstruction) hrun ((halone hsingle).symm.trans ht)⟩

/-! ## The calls of the inspection port -/

section
variable {s : State} {c : HostCall} {rest : List (Option HostAction)}

/-- Any call but a `step_one_instruction` from Paused is one reply and one update (60_exceptions.md R328). -/
theorem step_of_call (hhost : s.host = some (.call c) :: rest) (hc : c = .stepOneInstruction → s.engine ≠ .paused) :
    step s = .next ((State.hostCall { s with host := rest } c).2.reply (State.hostCall { s with host := rest } c).1) :=
  (step_of_hostAction hhost).trans (if_neg fun h => hc h.1 h.2)

theorem State.hostCall_of_always (s : State) (hc : c.always = true) : s.hostCall c = s.acceptedCall c :=
  if_pos (by simp [hc])

theorem State.hostCall_of_not_running (c : HostCall) (he : s.engine ≠ .running) : s.hostCall c = s.acceptedCall c := by
  have hgrant : arbiterGrant (some s.engine) = .inspection := by
    cases hs : s.engine with
    | running => exact absurd hs he
    | paused | halted | faulted => rfl
  exact if_pos (by simp [hgrant])

theorem State.hostCall_of_running (hc : c.always = false) (he : s.engine = .running) : s.hostCall c = (.refused, s) :=
  if_neg (by simp [hc, he, arbiterGrant])

theorem State.pauseCall_of_not_running (he : s.engine ≠ .running) : s.pauseCall = s := by
  unfold State.pauseCall
  split
  · exact absurd ‹_› he
  all_goals rfl

theorem State.runCall_of_not_running (he : s.engine ≠ .running) : s.runCall = s.resume := by
  unfold State.runCall
  split
  · exact absurd ‹_› he
  all_goals rfl

/-- A status or control call that the host makes is accepted, whatever the engine is doing. -/
theorem step_of_always (hhost : s.host = some (.call c) :: rest) (hc : c.always = true) :
    step s =
      .next ((State.acceptedCall { s with host := rest } c).2.reply (State.acceptedCall { s with host := rest } c).1) := by
  rw [step_of_call hhost (by rintro rfl; cases hc), State.hostCall_of_always _ hc]

end

/-- Settles O57: each call is one update of the state, and a pending pause is taken at the boundary. -/
theorem pauseAndRunCalls : Obligations.PauseAndRunCalls := by
  intro s rest
  refine ⟨fun hhost => ?_, fun hhost => ?_, fun hmoves hrun hwait hpause => ?_⟩
  · have hstep : step s = .next ((State.pauseCall { s with host := rest }).reply .done) := step_of_always hhost rfl
    refine ⟨fun hrun hwait => ?_, fun hrun hwait => ?_, fun he => ?_⟩ <;> rw [hstep]
    · simp [State.pauseCall, hrun, hwait]
    · simp [State.pauseCall, hrun, hwait]
    · rw [State.pauseCall_of_not_running (s := { s with host := rest }) he]
  · have hstep : step s = .next ((State.runCall { s with host := rest }).reply .done) := step_of_always hhost rfl
    refine ⟨fun hrun => ?_, fun he => ?_⟩ <;> rw [hstep]
    · simp [State.runCall, hrun]
    · rw [State.runCall_of_not_running (s := { s with host := rest }) he]
      rfl
  · rw [step_of_boundary hmoves hrun hwait]
    exact State.boundary_pauses (s := { s with host := s.host.tail }) hpause

/-! ## A single step -/

/-- The state in which the instruction of a `step_one_instruction` from Paused runs: the call is answered, and no breakpoint is
looked at (60_exceptions.md R335, R336). -/
def State.atSingleStep (s : State) (rest : List (Option HostAction)) : State :=
  { s with host := rest, engine := .running, skipBp := false, singleStep := true }.reply .done

section
variable {s t : State}

/-- From Paused the call is a whole instruction with the end of a single step around it. -/
theorem step_of_stepOne {rest : List (Option HostAction)} (hhost : s.host = some (.call .stepOneInstruction) :: rest)
    (he : s.engine = .paused) : step s = settleResult (s.atSingleStep rest).runInstruction :=
  (step_of_hostAction hhost).trans (if_pos ⟨rfl, he⟩)

/-- An instruction that leaves its `In` waiting is an `In`, and has done nothing but ask for a line (46_io.md R274). -/
theorem State.runInstruction_asks (hwait : s.waitInput = false) (h : s.runInstruction = .next t) (ht : t.waitInput = true) :
    t = s.requestLine ∧ s.memRead s.ip.toNat = some 20 := by
  obtain ⟨ws, tr, -, rfl⟩ | ⟨ws, i, hf, hd, he⟩ := State.runInstruction_effect h
  · cases ht
  · obtain ⟨-, hs⟩ | ⟨htag, -, -, rfl⟩ := he.waits ht
    · rw [hwait] at hs
      cases hs
    · obtain ⟨w, rfl⟩ := (decode_input_iff hd).1 htag
      exact ⟨rfl, (State.holdsWords_cons.1 (State.fetch_ok_words hf)).1⟩

theorem State.settle_of_waiting (hwait : s.waitInput = true) : s.settle = s :=
  if_neg (by simp [hwait])

/-- A single step whose instruction no longer waits is over, and so is Running (60_exceptions.md R335). -/
theorem State.settle_of_completed (hsingle : s.singleStep = true) (hwait : s.waitInput = false) :
    s.settle.waitInput = false ∧ s.settle.singleStep = false ∧ s.settle.engine ≠ .running := by
  rw [State.settle, if_pos (by simp [hsingle, hwait])]
  refine ⟨hwait, rfl, ?_⟩
  by_cases hrun : s.engine = .running
  · simp [hrun]
  · simp [hrun]

end

/-- Settles O58: the instruction at IP runs in `atSingleStep`, and the end of the single step turns Running into Paused. -/
theorem stepOneInstructionStepsOnce : Obligations.StepOneInstructionStepsOnce := by
  intro s rest hhost he hwait
  have hstep := step_of_stepOne hhost he
  have hread (a : Nat) : (s.atSingleStep rest).memRead a = s.memRead a := State.memRead_congr rfl rfl a
  refine ⟨fun i ws hd hwf hws => ?_, fun ws trap hfault => ?_, ?_⟩
  · rw [hstep, State.runInstruction_decoded hd hwf fun j hj => (hread _).trans (hws j hj)]
    rfl
  · have hfetch : (s.atSingleStep rest).fetch = .error { words := ws, trap := trap } :=
      State.fetch_of_decodeFault hfault hread rfl
    have hrun : (s.atSingleStep rest).runInstruction = .next ((s.atSingleStep rest).enterFault ws trap) := by
      rw [State.runInstruction, hfetch]
    rw [hstep, settleResult_of_stopped hrun rfl (by simp)]
    rfl
  · obtain ⟨t, ht⟩ := (s.atSingleStep rest).runInstruction_next
    refine ⟨t.settle, by rw [hstep, ht, settleResult], ?_⟩
    cases hw : t.waitInput with
    | true =>
      obtain ⟨rfl, hop⟩ := State.runInstruction_asks (s := s.atSingleStep rest) hwait ht hw
      rw [State.settle_of_waiting hw]
      exact .inl ⟨hw, State.requestLine_engine _, State.requestLine_singleStep _, (hread _).symm.trans hop⟩
    | false => exact .inr (State.settle_of_completed (State.runInstruction_sameHostSide ht).singleStep hw)

/-! ## State access and status -/

section
variable (s : State)

@[simp] theorem State.pauseCall_replies : s.pauseCall.replies = s.replies := by
  unfold State.pauseCall
  split
  · split <;> rfl
  all_goals rfl

@[simp] theorem State.runCall_replies : s.runCall.replies = s.replies := by unfold State.runCall; split <;> rfl

/-- A status or control call is answered, and records no reply itself (60_exceptions.md R328). -/
theorem State.acceptedCall_of_always {c : HostCall} (hc : c.always = true) :
    (s.acceptedCall c).1 ≠ .refused ∧ (s.acceptedCall c).2.replies = s.replies := by
  cases c with
  | getStatus | isHalted | isFaulted | getFault => exact ⟨nofun, rfl⟩
  | pause => exact ⟨nofun, s.pauseCall_replies⟩
  | run => exact ⟨nofun, s.runCall_replies⟩
  | _ => cases hc

end

/-- Settles O59: the arbiter refuses a state-access call in Running, and nothing refuses the others. -/
theorem stateAccessIsRefusedWhileRunning : Obligations.StateAccessIsRefusedWhileRunning := by
  intro s c rest hhost
  refine ⟨fun hc hrun => ?_, fun hc => ?_⟩
  · rw [step_of_call hhost (by simp [hrun]), State.hostCall_of_running (s := { s with host := rest }) hc hrun]
  · obtain ⟨hreply, hkept⟩ := State.acceptedCall_of_always { s with host := rest } hc
    exact ⟨_, _, step_of_always hhost hc, congrArg (· ++ _) hkept, hreply⟩

/-- Setting a breakpoint adds its address to BP and no other (10_state.md R43, 60_exceptions.md R336). -/
theorem mem_insertAddress {a x : Nat} {bs : List Nat} : x ∈ insertAddress a bs ↔ x = a ∨ x ∈ bs := by
  induction bs with
  | nil => simp [insertAddress]
  | cons b bs ih =>
    unfold insertAddress
    split_ifs with hlt heq
    · exact List.mem_cons
    · simp [heq]
    · rw [List.mem_cons, ih, List.mem_cons, or_left_comm]

/-- Settles O60: outside Running every call is accepted, and what an accepted call does is its definition. -/
theorem inspectionCallContracts : Obligations.InspectionCallContracts := by
  intro s
  refine ⟨fun he => ?_, s.hostCall_of_always rfl, s.hostCall_of_always rfl, s.hostCall_of_always rfl,
    s.hostCall_of_always rfl⟩
  have haccepted (c : HostCall) : s.hostCall c = s.acceptedCall c := State.hostCall_of_not_running c he
  refine ⟨fun a => haccepted _, fun a v => haccepted _, fun k => ?_, fun k v => ?_, fun n v hn => ⟨?_, ?_⟩, haccepted _,
    haccepted _, fun v => haccepted _, fun a => ⟨_, haccepted _, rfl, fun x => mem_insertAddress⟩⟩
  · exact (haccepted _).trans (dif_pos k.isLt)
  · exact (haccepted _).trans (dif_pos k.isLt)
  · exact (haccepted _).trans (dif_neg (by omega))
  · exact (haccepted _).trans (dif_neg (by omega))

end Sys2Proof.Machine
end

section
/-!
PROOF. The statements of 70_reset_and_hazards.md: the words of an image file and the cells they come to; the reset state, that it
is legal and ready, and its first step.
-/
namespace Sys2Proof.Machine

open Sys2Proof

/-! ## The words of an image file -/

section
variable {file : List Byte} {image : List Word}

/-- An odd number of bytes gives no image (70_reset_and_hazards.md R352). -/
theorem imageWords_of_odd (h : file.length % 2 = 1) : imageWords file = none := by
  induction file using imageWords.induct with
  | case1 => simp at h
  | case2 => rfl
  | case3 lo hi rest ih =>
    simp only [List.length_cons] at h
    rw [imageWords, ih (by omega), Option.map_none]

/-- An even number of bytes gives an image of half as many words (70_reset_and_hazards.md R351). -/
theorem imageWords_of_even (h : file.length % 2 = 0) :
    ∃ image, imageWords file = some image ∧ file.length = 2 * image.length := by
  induction file using imageWords.induct with
  | case1 => exact ⟨[], rfl, rfl⟩
  | case2 => simp at h
  | case3 lo hi rest ih =>
    simp only [List.length_cons] at h ⊢
    obtain ⟨ws, hws, hlen⟩ := ih (by omega)
    exact ⟨_, by rw [imageWords, hws, Option.map_some], by rw [List.length_cons]; omega⟩

/-- Word `i` of the image is made of the bytes `2 * i` and `2 * i + 1`, low byte first (20_memory.md R63). -/
theorem imageWords_getElem? {i : Nat} {lo hi : Byte} (h : imageWords file = some image) (hlo : file[2 * i]? = some lo)
    (hhi : file[2 * i + 1]? = some hi) : image[i]? = some (BitVec.ofNat 16 (lo.toNat + 256 * hi.toNat)) := by
  induction file using imageWords.induct generalizing image i with
  | case1 => simp at hlo
  | case2 => simp at hhi
  | case3 lo' hi' rest ih =>
    rw [imageWords, Option.map_eq_some_iff] at h
    obtain ⟨ws, hws, rfl⟩ := h
    cases i with
    | zero =>
      obtain rfl : lo' = lo := Option.some.inj hlo
      obtain rfl : hi' = hi := Option.some.inj hhi
      rfl
    | succ i => rw [List.getElem?_cons_succ, ih hws hlo hhi]

end

/-! ## The cells of an image -/

/-- An image laid out from address `a` reads word `i` at `a + i`, and nothing past its end (70_reset_and_hazards.md R351). -/
theorem Memory.read_imageCells (image : List Word) (a i : Nat) : Memory.read (imageCells a image) (a + i) = image[i]? := by
  induction image generalizing a i with
  | nil => rfl
  | cons w ws ih =>
    cases i with
    | zero => simp [imageCells, Memory.read]
    | succ i =>
      have hne : a + (i + 1) ≠ a := by omega
      have hnext : a + (i + 1) = a + 1 + i := by omega
      rw [imageCells, Memory.read, if_neg hne, hnext, ih, List.getElem?_cons_succ]

/-- An image that fits in the address space is laid out in canonical form. -/
theorem Memory.risingFrom_imageCells {image : List Word} {a : Nat} (h : a + image.length ≤ 65536) :
    Memory.risingFrom a (imageCells a image) = true := by
  induction image generalizing a with
  | nil => rfl
  | cons w ws ih =>
    rw [List.length_cons] at h
    have ha : a ≤ 65535 := by omega
    simp [imageCells, Memory.risingFrom, ha, ih (a := a + 1) (by omega)]

/-! ## The loader -/

section
variable {file : List Byte} {image : List Word}

theorem loadFile_of_noImage (h : imageWords file = none) : loadFile none file = .loadError := by
  simp [loadFile, arbiterGrant, h]

theorem loadFile_of_image (h : imageWords file = some image) :
    loadFile none file = if image.length ≤ 65536 then .running (State.loadImage image) else .loadError := by
  simp [loadFile, arbiterGrant, h]

end

/-- Settles O53: an image of half the file's bytes, or none, and the cells it is laid out in. -/
theorem loaderPlacesTheImage : Obligations.LoaderPlacesTheImage := by
  refine fun file => ⟨fun hodd => loadFile_of_noImage (imageWords_of_odd hodd), fun heven hlong => ?_, fun heven hfits => ?_⟩
  · obtain ⟨image, himage, hlen⟩ := imageWords_of_even heven
    rw [loadFile_of_image himage, if_neg (by omega)]
  · obtain ⟨image, himage, hlen⟩ := imageWords_of_even heven
    have hread (i : Nat) : Memory.read (imageCells 0 image) i = image[i]? := by
      simpa using Memory.read_imageCells image 0 i
    refine ⟨imageCells 0 image, ?_, fun i lo hi hlo hhi => ?_, fun i hi => ?_, ?_⟩
    · rw [loadFile_of_image himage, if_pos (by omega), State.loadImage]
    · rw [hread, imageWords_getElem? himage hlo hhi]
    · rw [hread, List.getElem?_eq_none (by omega)]
    · exact Memory.risingFrom_imageCells (by omega)

/-! ## The reset state -/

theorem State.reset_getReg (k : Fin 8) : State.reset.getReg k = 0 := Vector.getElem_replicate k.isLt

/-- The record of reset names no fault and holds no word (10_state.md R41). -/
theorem FaultRecord.zero_wf : FaultRecord.zero.Wf where
  opcode_valid _ := ⟨rfl, rfl⟩
  fopn0_beyond _ := rfl
  fopn1_beyond _ := rfl
  fopn2_beyond _ := rfl
  faddr_only _ := rfl
  fopk_only _ := rfl
  cause_of_core := Nat.zero_le 7

theorem State.reset_dataInv : State.reset.DataInv where
  mem_wf := State.reset_mem_wf
  capacity_pos := Nat.succ_pos _
  depth_le := Nat.zero_le _
  record_wf := FaultRecord.zero_wf
  bp_rising := rfl

/-- Settles O50: no `In` waits, and nothing is pending. -/
theorem resetMeetsTheInvariant : Obligations.ResetMeetsTheInvariant :=
  State.reset_dataInv.inv_of_notWaiting rfl (fun _ => rfl) rfl

/-- Settles O51: the registers and the cells for every index; each other element as `State.reset` writes it. -/
theorem resetState : Obligations.ResetState :=
  ⟨State.reset_getReg, rfl, rfl, fun _ => rfl, rfl, rfl, rfl, rfl, rfl, rfl, rfl⟩

/-! ## The first step -/

theorem State.loadImage_nil : State.loadImage [] = State.reset := rfl

/-- Reset is a boundary at which the instruction at IP runs. -/
theorem State.reset_ready : State.reset.ready where
  moves := .inl rfl
  running := rfl
  notWaiting := rfl
  noPause := rfl
  noBreak := .inr List.not_mem_nil

/-- No host action is queued and SKIP_BP is 0, so that the turn at reset changes neither. -/
theorem State.reset_atInstruction : State.reset.atInstruction = State.reset := rfl

/-- Address 0 reads as nothing at reset: its cell is unset and it is no alias (20_memory.md R64). -/
theorem State.reset_memRead_zero : State.reset.memRead 0 = none :=
  State.memRead_eq_none (fun _ => rfl) (by decide)

/-- Settles O52: the opcode cell at the ready boundary of reset cannot be read. -/
theorem emptyImageFaultsAtZero : Obligations.EmptyImageFaultsAtZero := by
  have hfault : DecodeFault State.reset.memRead State.reset.ip.toNat [] (.invalidAddress 0) :=
    .opcodeUnset State.reset_memRead_zero
  have hsettle : (State.reset.enterFault [] (.invalidAddress 0)).settle = State.reset.enterFault [] (.invalidAddress 0) :=
    if_neg (by simp [State.enterFault, State.reset])
  rw [Obligations.EmptyImageFaultsAtZero, State.loadImage_nil, step_of_decodeFault State.reset_ready hfault,
    State.reset_atInstruction, hsettle]

end Sys2Proof.Machine
end
